-- ==== Sys2Proof/Word.lean ====
section
/-!
DEFINITION. Bytes and bit sequences (00_scope.md section 5.1).
-/
namespace Sys2Proof

/-- A byte, 0 to 255. -/
abbrev Byte := BitVec 8

/-- A bit sequence in stream order, first bit first. -/
abbrev Bits := List Bool

/-- A byte sequence, first byte first. -/
abbrev Bytes := List Byte

end Sys2Proof
end

