-- ==== Sys2Proof/Config.lean ====
section
/-!
DEFINITION. The implementation parameters of 00_scope.md R5.

The spec asks a model to take each as a configuration field with a default. `exec`, `step` and the reset state have
fixed types without a configuration argument, so a `Config` is held in `State` (log 1), where no step writes it.
-/
namespace Sys2Proof

/-- `RB_TAIL`: what RDBYTES does when exactly `n` bytes remain (R95, 90_conflicts.md C3, decision D9). -/
inductive RbTail where
  | clamp
  | overshoot
  | exhaust
  deriving DecidableEq, Repr

/-- The parameters of R5 that an implementation chooses. -/
structure Config where
  /-- `VAL_W`, the width in bits of a value operand and of a value result. -/
  valW : Nat
  /-- `CAP`, the largest length of `contents`; `none` means unbounded. -/
  cap : Option Nat
  /-- `RB_TAIL`. -/
  rbTail : RbTail
  /-- `STRICT_RESET`, the value of `CTRL.STRICT` after reset. -/
  strictReset : Bool
  deriving DecidableEq, Repr

/-- The defaults of R5. -/
def Config.defaults : Config := ⟨64, none, .clamp, true⟩

/-- The constraint of R5 on `VAL_W`; the other parameters have none. -/
def Config.wf (c : Config) : Bool := decide (32 ≤ c.valW) && decide (c.valW ≤ 255)

/-- `N_MAX`, the largest width operand of RDBITS and ENCF: fixed to `VAL_W` (R5). -/
def Config.nMax (c : Config) : Nat := c.valW

/-- `LZ_MAX`, the largest count of leading zero bits DECUE and DECSE accept: fixed to `VAL_W` (R5). -/
def Config.lzMax (c : Config) : Nat := c.valW

/-- `CNT_W`, the width in bits of a payload count: fixed (R5). -/
def cntW : Nat := 32

/-- A value word travels in `ceil(VAL_W/8)` bytes (R79). -/
def Config.valBytes (c : Config) : Nat := (c.valW + 7) / 8

end Sys2Proof
end

