-- ==== Sys2Proof/Machine/State.lean ====
section
/-!
DEFINITION. The state of the block (10_state.md), the reasons a step can stop, and the state after reset.

`State` holds every piece of state the spec gives the block (`cursor`, `ctrl`, `status`, `ep`, `rp`) and, beside it,
what the spec calls the host's or the configuration's (R25): the parameters, the command bytes not yet taken, the
reset request, the responses sent and `pc` (logs 1, 3, 4, 7).
-/
namespace Sys2Proof.Machine

/-- `contents`, the block's one memory (R11, R40): byte `a` of the list stands at address `a`, and addresses from
`LEN` on do not exist (log 2). -/
structure Memory where
  bytes : Bytes
  deriving DecidableEq, Repr

/-- The cursor: `contents`, the read pointer (`RBYTE`, `RBIT`) and `WBIT`, the bit half of the write pointer (R11 to
R15). `LEN` is derived (R15). -/
structure Cursor where
  /-- `contents` (R11). -/
  contents : Memory
  /-- `RBYTE`, `read_byte_offset` (R12). -/
  rbyte : Nat
  /-- `RBIT`, `read_bit_offset`, 3 bits (R13). -/
  rbit : Fin 8
  /-- `WBIT`, `write_bit_offset`, 3 bits (R14). -/
  wbit : Fin 8
  deriving DecidableEq, Repr

/-- The outcomes of a command (R190, R191); their 4-bit codes are `StatusCode.code`. -/
inductive StatusCode where
  | ok
  | exhausted
  | decodeRange
  | overflowWarning
  | encodingOverflow
  | illegalCommand
  | capacityExceeded
  | faulted
  deriving DecidableEq, Repr

/-- `CTRL` (R16); the reserved bits hold nothing and read as zero (log 12), `Ctrl.word` is the register's 8 bits. -/
structure Ctrl where
  /-- `STRICT`, bit 0. -/
  strict : Bool
  deriving DecidableEq, Repr

/-- `STATUS` (R17); the reserved bits hold nothing and read as zero (log 12), `Status.word` is the register's 12
bits. -/
structure Status where
  /-- `FAULT`, bit 0. -/
  fault : Bool
  /-- `OVFW`, bit 1. -/
  ovfw : Bool
  /-- `CAUSE`, bits 7:4. -/
  cause : StatusCode
  /-- `LAST`, bits 11:8. -/
  last : StatusCode
  deriving DecidableEq, Repr

/-- `Z1` and `Z2`, the hidden flags of EPINS (R18). -/
structure ZeroFlags where
  z1 : Bool
  z2 : Bool
  deriving DecidableEq, Repr

/-- `ACC` and `CNT`, the hidden accumulator of PACK (R19). -/
structure PackAcc where
  acc : Byte
  cnt : Fin 8
  deriving DecidableEq, Repr

/-- The result a response carries (R81). A value is its `VAL_W`-bit word, as a natural number. -/
inductive Result where
  | none
  | value (w : Nat)
  | bits (bits : Bits)
  | bytes (bytes : Bytes)
  deriving DecidableEq, Repr

/-- A response (R76, R81). -/
structure Response where
  status : StatusCode
  result : Result
  deriving DecidableEq, Repr

/-- The machine: the block and the host's side of its interface. -/
structure State where
  /-- The parameters (R5); no step writes them (log 1). -/
  cfg : Config
  /-- The cursor (R11 to R14). -/
  cursor : Cursor
  /-- `CTRL` (R16). -/
  ctrl : Ctrl
  /-- `STATUS` (R17). -/
  status : Status
  /-- `Z1`, `Z2` (R18). -/
  ep : ZeroFlags
  /-- `ACC`, `CNT` (R19). -/
  rp : PackAcc
  /-- The command bytes the host has presented and the block has not taken (R77 to R80, log 3). -/
  input : Bytes
  /-- The host asks for the reset of R220 (log 7). -/
  resetRequest : Bool
  /-- The responses sent, oldest first (R81, log 4). -/
  responses : List Response
  /-- `pc`, the index of the host's next command (R20). -/
  pc : Nat
  deriving DecidableEq, Repr

/-- Why the machine stops with a fault. The fatal faults of 60_exceptions.md are not here: each of them is a next
state. -/
inductive Fault where
  /-- Raised by `step` when the host has presented no command: the run is over, or the block waits (R8, log 5).
  Safe: nothing is claimed of what the block does between commands. -/
  | noCommand
  deriving DecidableEq, Repr

/-- Why the model gives a step no meaning. -/
inductive Refusal where
  /-- Raised by an arm of `exec` whose instruction has no meaning yet; no arm does. Safe. -/
  | notModelled (mnemonic : String)
  /-- Raised by `step` when the presented bytes end inside a command (R157, 93_implementation_defined.md U11, log 6).
  Safe: it is not a command of the spec. -/
  | truncatedCommand
  /-- Raised by RDREG when the register's value does not fit `VAL_W` bits (R24, 93_implementation_defined.md U9,
  log 10). Safe: the spec defines no value and tells a model to refuse the read. -/
  | registerValueUndefined
  deriving DecidableEq, Repr

/-- The three outcomes of a step of this machine. -/
abbrev Outcome := Host.Outcome State Fault Refusal

/-- The empty cursor (R23, R150). -/
def Cursor.empty : Cursor := ⟨⟨[]⟩, 0, 0, 0⟩

/-- The state after reset for given parameters (R23); the fields that are not the block's start empty (log 14), `pc`
at 0 (R20). -/
def State.resetWith (c : Config) : State where
  cfg := c
  cursor := Cursor.empty
  ctrl := ⟨c.strictReset⟩
  status := ⟨false, false, .ok, .ok⟩
  ep := ⟨false, false⟩
  rp := ⟨0#8, 0⟩
  input := []
  resetRequest := false
  responses := []
  pc := 0

/-- The state after reset at the default parameters (R5, R23). -/
def State.reset : State := State.resetWith Config.defaults

end Sys2Proof.Machine
end

