-- ==== Sys2Proof/Machine/Flags.lean ====
section
/-!
DEFINITION. The status codes, `STATUS` and `CTRL` as words, and the ways a command writes `STATUS` (R16, R17, R191,
R201).
-/
namespace Sys2Proof.Machine

/-- The 4-bit status codes of R191. -/
def StatusCode.code : StatusCode → BitVec 4
  | .ok => 0#4
  | .exhausted => 1#4
  | .decodeRange => 2#4
  | .overflowWarning => 3#4
  | .encodingOverflow => 8#4
  | .illegalCommand => 9#4
  | .capacityExceeded => 10#4
  | .faulted => 15#4

/-- The fatal faults (R190). -/
inductive FatalFault where
  | encodingOverflow
  | illegalCommand
  | capacityExceeded
  deriving DecidableEq, Repr

/-- The status a fatal fault is reported with (R191). -/
def FatalFault.status : FatalFault → StatusCode
  | .encodingOverflow => .encodingOverflow
  | .illegalCommand => .illegalCommand
  | .capacityExceeded => .capacityExceeded

/-- The recoverable signals (R190). -/
inductive Signal where
  | exhausted
  | decodeRange
  deriving DecidableEq, Repr

/-- The status a signal is reported with (R191). -/
def Signal.status : Signal → StatusCode
  | .exhausted => .exhausted
  | .decodeRange => .decodeRange

/-- `CTRL` as its 8 bits: bit 0 `STRICT`, bits 7:1 zero (R16). -/
def Ctrl.word (c : Ctrl) : BitVec 8 := (0#7 ++ BitVec.ofBool c.strict : BitVec 8)

/-- `STATUS` as its 12 bits: 11:8 `LAST`, 7:4 `CAUSE`, 3:2 zero, 1 `OVFW`, 0 `FAULT` (R17). -/
def Status.word (s : Status) : BitVec 12 :=
  (s.last.code ++ s.cause.code ++ 0#2 ++ BitVec.ofBool s.ovfw ++ BitVec.ofBool s.fault : BitVec 12)

/-- `STATUS.LAST <- code` (R155 step 5). -/
def Status.withLast (s : Status) (code : StatusCode) : Status := { s with last := code }

/-- `STATUS.OVFW <- 1` (R112). -/
def Status.withOverflow (s : Status) : Status := { s with ovfw := true }

/-- `STATUS.FAULT <- 1; STATUS.CAUSE <- code` (R155 step 4, R201). -/
def Status.withFault (s : Status) (f : FatalFault) : Status := { s with fault := true, cause := f.status }

/-- `STATUS.FAULT <- 0; STATUS.OVFW <- 0; STATUS.CAUSE <- 0` (R150, R151). -/
def Status.newSession (s : Status) : Status := { s with fault := false, ovfw := false, cause := .ok }

end Sys2Proof.Machine
end

