-- ==== Sys2Proof/Syntax.lean ====
section
/-!
DEFINITION. The commands of the block (30_encoding.md R76, R82), one constructor per row of the opcode table, and the
names the encoding of 30_encoding.md part B is written with.
-/
namespace Sys2Proof

/-- A command with its operands and payload (R76). `W` operands keep their 8 bits; an unsigned value operand is the
natural number its word spells and a signed one the integer (R79); a payload is the sequence itself. Operands outside
their encodable range are ruled out by `Instr.wf`; operands an operation's rule calls illegal (R83) are commands, and
their meaning raises `IllegalCommand`. -/
inductive Instr where
  /-- INIT (R150). -/
  | init
  /-- LOAD bytes (R151). -/
  | load (bytes : Bytes)
  /-- DUMP (R152). -/
  | dump
  /-- RDREG r (R153). -/
  | rdreg (r : BitVec 8)
  /-- WRCTRL c (R154). -/
  | wrctrl (c : BitVec 8)
  /-- APPBYTES bytes (R91). -/
  | appbytes (bytes : Bytes)
  /-- APPBITS bits (R92). -/
  | appbits (bits : Bits)
  /-- RDBYTES n (R94). -/
  | rdbytes (n : Nat)
  /-- RDBITS n (R97). -/
  | rdbits (n : BitVec 8)
  /-- ENCF value, width (R111, R112). -/
  | encf (width : BitVec 8) (value : Nat)
  /-- ENCUE value (R113). -/
  | encue (value : Nat)
  /-- ENCSE value (R114). -/
  | encse (value : Int)
  /-- DECUE (R116). -/
  | decue
  /-- DECSE (R117). -/
  | decse
  /-- WIDTHU max (R118). -/
  | widthu (hi : Nat)
  /-- WIDTHS min, max (R119). -/
  | widths (lo hi : Int)
  /-- PACK bits (R130). -/
  | pack (bits : Bits)
  /-- EPINS bytes (R140). -/
  | epins (bytes : Bytes)
  deriving DecidableEq, Repr

/-- The operations of R82, without operands. -/
inductive Op where
  | init | load | dump | rdreg | wrctrl
  | appbytes | appbits | rdbytes | rdbits
  | encf | encue | encse | decue | decse | widthu | widths
  | pack
  | epins
  deriving DecidableEq, Repr

/-- The operation of a command. -/
def Instr.op : Instr → Op
  | .init => .init
  | .load _ => .load
  | .dump => .dump
  | .rdreg _ => .rdreg
  | .wrctrl _ => .wrctrl
  | .appbytes _ => .appbytes
  | .appbits _ => .appbits
  | .rdbytes _ => .rdbytes
  | .rdbits _ => .rdbits
  | .encf _ _ => .encf
  | .encue _ => .encue
  | .encse _ => .encse
  | .decue => .decue
  | .decse => .decse
  | .widthu _ => .widthu
  | .widths _ _ => .widths
  | .pack _ => .pack
  | .epins _ => .epins

/-- The five command formats (R78 to R80). -/
inductive Format where
  | z | v | vv | py | pb
  deriving DecidableEq, Repr

/-- One row of the opcode map (R82): a command word `cw` selects the row when `cw &&& mask = pattern`. -/
structure OpcodeRow where
  op : Op
  format : Format
  pattern : BitVec 32
  mask : BitVec 32
  deriving DecidableEq, Repr

/-- Why a command is illegal before its operation runs (R83, R80). The names are the model's; every one of them is
answered with the same status (log 17). -/
inductive IllegalReason where
  /-- The opcode is in no row of R82. -/
  | unassignedOpcode
  /-- The field `RSV` is not zero. -/
  | reservedNotZero
  /-- `W` is not zero in a command that does not use it. -/
  | unusedWNotZero
  /-- A value word has a one among its unused high bits (R79, log 11). -/
  | valueHighBits
  /-- A bit payload has a one among its pad bits (R80). -/
  | padBits
  deriving DecidableEq, Repr

end Sys2Proof
end

