-- ==== Sys2Proof/WellFormed.lean ====
section
/-!
DEFINITION. The commands that can be presented to the block: the ranges the transport gives value operands (R79) and
payload counts (R76, R157).
-/
namespace Sys2Proof

/-- An unsigned operand is a `VAL_W`-bit word (R79). -/
def unsignedFits (c : Config) (v : Nat) : Bool := decide (v < 2 ^ c.valW)

/-- A signed operand is held by a `VAL_W`-bit two's complement word (R79). -/
def signedFits (c : Config) (v : Int) : Bool :=
  decide (-(2 ^ (c.valW - 1) : Int) ≤ v) && decide (v < (2 ^ (c.valW - 1) : Int))

/-- A payload has fewer than `2^CNT_W` items (R76, R157). -/
def countFits (n : Nat) : Bool := decide (n < 2 ^ cntW)

/-- The command can be presented to a block with these parameters. -/
def Instr.wf (c : Config) : Instr → Bool
  | .init => true
  | .load bytes => countFits bytes.length
  | .dump => true
  | .rdreg _ => true
  | .wrctrl _ => true
  | .appbytes bytes => countFits bytes.length
  | .appbits bits => countFits bits.length
  | .rdbytes n => unsignedFits c n
  | .rdbits _ => true
  | .encf _ value => unsignedFits c value
  | .encue value => unsignedFits c value
  | .encse value => signedFits c value
  | .decue => true
  | .decse => true
  | .widthu hi => unsignedFits c hi
  | .widths lo hi => signedFits c lo && signedFits c hi
  | .pack bits => countFits bits.length
  | .epins bytes => countFits bytes.length

end Sys2Proof
end

