-- ==== Sys2Proof/Machine/Operands.lean ====
section
/-!
DEFINITION. The value forms and codes of the spec (00_scope.md section 5, 30_encoding.md part A): `bin`, `val`,
`bitlen`, two's complement words, the byte layout of bits, the Exp-Golomb codes and the signed mapping. All arithmetic
is exact (R120).
-/
namespace Sys2Proof.Machine

/-- `zeros(n)`. -/
def zeros (n : Nat) : Bits := List.replicate n false

/-- `bitlen(x)` (00_scope.md section 5.1). -/
def bitlen (x : Nat) : Nat := if x = 0 then 0 else Nat.log2 x + 1

/-- `bin(x, w)`: the `w` low bits of `x`, most significant first (00_scope.md section 5.1, R61). -/
def bin (x w : Nat) : Bits := (List.range w).map fun k => x.testBit (w - 1 - k)

/-- `val(bits)`: the number a bit sequence spells, most significant bit first (00_scope.md section 5.1). -/
def val (bits : Bits) : Nat := bits.foldl (fun v b => 2 * v + b.toNat) 0

/-- `sext_N(w)` of an `n`-bit word given as a natural number (00_scope.md section 5.2). -/
def sext (n w : Nat) : Int := if w < 2 ^ (n - 1) then (w : Int) else (w : Int) - (2 ^ n : Int)

/-- The `n`-bit two's complement word of an integer, as a natural number (R79). -/
def twosWord (n : Nat) (v : Int) : Nat := (v % (2 ^ n : Int)).toNat

/-- A byte in stream order: stream position `k` is the byte's bit `7-k` (R42). -/
def bitsOfByte (b : Byte) : Bits := (List.range 8).map fun k => b.getMsbD k

/-- A byte sequence as the bit sequence it carries (R42, R43). -/
def bitsOf (bytes : Bytes) : Bits := bytes.flatMap bitsOfByte

/-- The byte that carries up to eight bits: item `k` at stream position `k`, the unused low bits zero (R60). -/
def byteOfBits (bits : Bits) : Byte := BitVec.ofNat 8 (val ((bits ++ zeros 8).take 8))

/-- The layout of R60: a bit sequence in `ceil(c/8)` bytes, the unused low bits of the last byte zero. -/
def bytesOf : Bits → Bytes
  | [] => []
  | b0 :: b1 :: b2 :: b3 :: b4 :: b5 :: b6 :: b7 :: rest =>
    byteOfBits [b0, b1, b2, b3, b4, b5, b6, b7] :: bytesOf rest
  | b0 :: rest => [byteOfBits (b0 :: rest)]

/-- A number in `n` bytes, most significant byte first (R77). -/
def beBytes (n v : Nat) : Bytes := (List.range n).map fun k => BitVec.ofNat 8 (v >>> (8 * (n - 1 - k)))

/-- The number spelled by bytes, most significant byte first (R77). -/
def beVal (bytes : Bytes) : Nat := bytes.foldl (fun v b => 256 * v + b.toNat) 0

/-- `ue(v)`, the unsigned Exp-Golomb code (R62). -/
def ue (v : Nat) : Bits := zeros (bitlen (v + 1) - 1) ++ bin (v + 1) (bitlen (v + 1))

/-- `codenum(v)`, the code number of a signed value (R66; its `v > 0` line is the spec's decision D14, log 13). -/
def codenum (v : Int) : Nat := if v ≤ 0 then 2 * v.natAbs else 2 * v.natAbs - 1

/-- `signedof(k)`, the inverse mapping (R67). -/
def signedof (k : Nat) : Int := if k % 2 = 1 then (((k + 1) / 2 : Nat) : Int) else -((k / 2 : Nat) : Int)

end Sys2Proof.Machine
end

