-- ==== Sys2Proof/Machine/Ops.lean ====
section
/-!
DEFINITION. The operations the meanings share: `MemRead` and `MemWrite` (00_scope.md section 5.2), the capacity
tests, a new session, the envelope of R155 with fault entry (R201), and reset as an event (R220).
-/
namespace Sys2Proof.Machine

/-! ### Memory (20_memory.md) -/

/-- `LEN` (R15). -/
def Memory.len (m : Memory) : Nat := m.bytes.length

/-- The byte at an address; an address from `LEN` on does not exist (R40). -/
def Memory.byte? (m : Memory) (a : Nat) : Option Byte := m.bytes[a]?

/-- `MemRead(a, n)`, used only where `a + n <= LEN`. -/
def Memory.read (m : Memory) (a n : Nat) : Bytes := (m.bytes.drop a).take n

/-- `MemWrite(LEN, n, v)`: the append form. -/
def Memory.append (m : Memory) (v : Bytes) : Memory := ⟨m.bytes ++ v⟩

/-- `MemWrite(LEN-1, 1, [last | v])`: the merge into the last byte. With no last byte, in states no run reaches, it
changes nothing (log 15). -/
def Memory.mergeLast (m : Memory) (v : Byte) : Memory := ⟨m.bytes.modify (m.bytes.length - 1) (· ||| v)⟩

/-- The memory as address and byte pairs. -/
def Memory.cells (m : Memory) : List Host.Cell := m.bytes.zipIdx.map fun p => (p.2, p.1)

/-- The canonical form of a memory: its addresses are 0, 1, ..., `LEN - 1`, each once, in rising order. -/
def Memory.wf (m : Memory) : Bool := decide (m.cells.map Prod.fst = List.range m.len)

/-! ### Size limits -/

/-- `contents` of `n` bytes would exceed `CAP` (R50). -/
def Config.exceedsCap (c : Config) (n : Nat) : Bool :=
  match c.cap with
  | none => false
  | some cap => decide (cap < n)

/-- A result of `n` items cannot be sent (R157). -/
def resultTooLong (n : Nat) : Bool := decide (2 ^ cntW ≤ n)

/-! ### The envelope (44_system_commands.md R155, 60_exceptions.md) -/

/-- How an operation's pseudocode ends (R155 step 3, R190). -/
inductive OpEnd where
  /-- `respond OK(r)`. -/
  | ok (s : State) (r : Result)
  /-- `respond OverflowWarning(r)`. -/
  | warning (s : State) (r : Result)
  /-- `raise` of a recoverable signal; the state written so far stays. -/
  | signal (s : State) (g : Signal)
  /-- `raise` of a fatal fault; nothing has been written. -/
  | fatal (f : FatalFault)
  /-- The spec makes no claim (U9). -/
  | unclaimed (r : Refusal)

/-- R155 step 5: `STATUS.LAST`, the response, `pc <- pc + 1`. -/
def answer (s : State) (code : StatusCode) (r : Result) : State :=
  { s with
    status := s.status.withLast code
    responses := s.responses ++ [⟨code, r⟩]
    pc := s.pc + 1 }

/-- Fault entry (R155 step 4, R201): `FAULT` and `CAUSE` are written once a session; while `FAULT = 1` the outcome is
`Faulted` and `CAUSE` stays (R203). No result, and nothing else changes. -/
def takeFault (f : FatalFault) (s : State) : State :=
  if s.status.fault then answer s .faulted .none
  else answer { s with status := s.status.withFault f } f.status .none

/-- The end of the fault state (R202): there is no return from a fault, a new session with a new cursor clears `FAULT`,
`OVFW` and `CAUSE` (R150, R151). -/
def newSession (s : State) (bytes : Bytes) : State :=
  { s with cursor := { Cursor.empty with contents := ⟨bytes⟩ }, status := s.status.newSession }

/-- The hidden state of EPINS and PACK at the values of R23. -/
def clearHidden (s : State) : State := { s with ep := ⟨false, false⟩, rp := ⟨0#8, 0⟩ }

/-- R155 steps 3 to 5, for a command that is served in state `s`. -/
def finish (s : State) : OpEnd → Outcome
  | .ok t r => .next (answer t .ok r)
  | .warning t r => .next (answer t .overflowWarning r)
  | .signal t g => .next (answer t g.status .none)
  | .fatal f => .next (takeFault f s)
  | .unclaimed r => .refused r

/-- The commands served while `FAULT = 1` (R155 step 1, R156). -/
def servedInFault : Op → Bool
  | .init | .load | .dump | .rdreg => true
  | .wrctrl | .appbytes | .appbits | .rdbytes | .rdbits => false
  | .encf | .encue | .encse | .decue | .decse | .widthu | .widths => false
  | .pack | .epins => false

/-- `Execute(cmd)` (R155), for a command whose operation ends in `e` when it is served. -/
def execute (op : Op) (s : State) (e : OpEnd) : Outcome :=
  if s.status.fault && !servedInFault op then .next (answer s .faulted .none) else finish s e

/-- `Execute(cmd)` of a command that is illegal before its operation runs (R83, R155 step 2). While `FAULT = 1` the
status is `Faulted`, whatever the opcode (R155 steps 1 and 4). -/
def execIllegal (s : State) : State := takeFault .illegalCommand s

/-! ### Reset as an event (70_reset_and_hazards.md R220, R221) -/

/-- The block at the values of R23; the host's side is not reset (R221), its request is served. -/
def resetBlock (s : State) : State :=
  { State.resetWith s.cfg with input := s.input, responses := s.responses, pc := s.pc }

end Sys2Proof.Machine
end

