-- ==== Sys2Proof/Machine/BitCursor.lean ====
section
/-!
DEFINITION. The BitCursor: `ReadBit()` and the bit reads built on it, APPBYTES, APPBITS, RDBYTES, RDBITS
(40_bitcursor.md).
-/
namespace Sys2Proof.Machine

/-! ### Reads -/

/-- How a cursor read ends. -/
inductive Read (α : Type) where
  | got (a : α) (c : Cursor)
  | exhausted (c : Cursor)
  deriving DecidableEq, Repr

/-- The read pointer one bit further (R96). -/
def Cursor.advanceBit (c : Cursor) : Cursor :=
  if c.rbit.val + 1 = 8 then { c with rbit := 0, rbyte := c.rbyte + 1 } else { c with rbit := c.rbit + 1 }

/-- `ReadBit()` (R96): the bit at stream position `RBIT` of byte `RBYTE`; `Exhausted` with nothing changed when
`RBYTE >= LEN`. -/
def readBit (c : Cursor) : Read Bool :=
  match c.contents.byte? c.rbyte with
  | none => .exhausted c
  | some b => .got (b.getMsbD c.rbit.val) c.advanceBit

/-- `repeat n times: v = 2*v + ReadBit()` (R97, R115). -/
def readBits : Nat → Nat → Cursor → Read Nat
  | 0, v, c => .got v c
  | n + 1, v, c =>
    match readBit c with
    | .exhausted c' => .exhausted c'
    | .got b c' => readBits n (2 * v + b.toNat) c'

/-- RDBITS (R97). -/
def opRdbits (n : BitVec 8) (s : State) : OpEnd :=
  if s.cfg.nMax < n.toNat then .fatal .illegalCommand
  else
    match readBits n.toNat 0 s.cursor with
    | .got v c => .ok { s with cursor := c } (.value v)
    | .exhausted c => .signal { s with cursor := c } .exhausted

/-- Step 1 of RDBYTES (R94): the read pointer at the next byte boundary. -/
def Cursor.alignRead (c : Cursor) : Cursor :=
  if c.rbit.val ≠ 0 then { c with rbit := 0, rbyte := c.rbyte + 1 } else c

/-- Step 4 of RDBYTES (R94, R95): over the `n` bytes and one more. -/
def Cursor.skipRun (c : Cursor) (tail : RbTail) (n : Nat) : Cursor :=
  match tail with
  | .overshoot => { c with rbyte := c.rbyte + n + 1 }
  | .clamp | .exhaust => { c with rbyte := min (c.rbyte + n + 1) c.contents.len }

/-- Does RDBYTES raise `Exhausted` at the aligned position (R94 step 2, R95)? -/
def Cursor.runExhausted (c : Cursor) (tail : RbTail) (n : Nat) : Bool :=
  decide (c.contents.len < c.rbyte) || decide (c.contents.len - c.rbyte < n) ||
    (decide (c.contents.len - c.rbyte = n) && tail == .exhaust)

/-- RDBYTES (R94, R95). The result limit of R157 applies to a read that would succeed, before anything is written
(log 9). -/
def opRdbytes (n : Nat) (s : State) : OpEnd :=
  let c := s.cursor.alignRead
  if c.runExhausted s.cfg.rbTail n then .signal { s with cursor := c } .exhausted
  else if resultTooLong n then .fatal .capacityExceeded
  else .ok { s with cursor := c.skipRun s.cfg.rbTail n } (.bytes (c.contents.read c.rbyte n))

/-! ### Writes -/

/-- APPBYTES (R91): the capacity test comes first, then the alignment, then the append. -/
def opAppbytes (bytes : Bytes) (s : State) : OpEnd :=
  if Config.exceedsCap s.cfg (s.cursor.contents.len + bytes.length) then .fatal .capacityExceeded
  else .ok { s with cursor := { s.cursor with wbit := 0, contents := s.cursor.contents.append bytes } } .none

/-- The loop body of APPBITS (R92): a new, all-zero last byte when `WBIT = 0`, the bit at stream position `WBIT` of
the last byte, `WBIT <- (WBIT + 1) mod 8`. -/
def Cursor.appendBit (c : Cursor) (b : Bool) : Cursor :=
  let m := if c.wbit.val = 0 then c.contents.append [0#8] else c.contents
  { c with contents := m.mergeLast (BitVec.ofNat 8 (b.toNat <<< (7 - c.wbit.val))), wbit := c.wbit + 1 }

/-- The bytes APPBITS of `n` bits will add (R92). -/
def Cursor.newBytes (c : Cursor) (n : Nat) : Nat := (c.wbit.val + n + 7) / 8 - (c.wbit.val + 7) / 8

/-- APPBITS (R92). -/
def opAppbits (bits : Bits) (s : State) : OpEnd :=
  if Config.exceedsCap s.cfg (s.cursor.contents.len + s.cursor.newBytes bits.length) then .fatal .capacityExceeded
  else .ok { s with cursor := bits.foldl Cursor.appendBit s.cursor } .none

/-! ### The commands -/

/-- APPBYTES (R91). -/
def execAppbytes (bytes : Bytes) (s : State) : Outcome := execute .appbytes s (opAppbytes bytes s)

/-- APPBITS (R92). -/
def execAppbits (bits : Bits) (s : State) : Outcome := execute .appbits s (opAppbits bits s)

/-- RDBYTES (R94). -/
def execRdbytes (n : Nat) (s : State) : Outcome := execute .rdbytes s (opRdbytes n s)

/-- RDBITS (R97). -/
def execRdbits (n : BitVec 8) (s : State) : Outcome := execute .rdbits s (opRdbits n s)

end Sys2Proof.Machine
end

