-- ==== Sys2Proof/Machine/EmulationPreventer.lean ====
section
/-!
DEFINITION. The EmulationPreventer: EPINS as the fold of `EpStep` over `Z1` and `Z2` (43_emulation_preventer.md R140,
R141).
-/
namespace Sys2Proof.Machine

/-- The test of `EpStep` (R141): an escape goes in front of `b`. -/
def escapes (z : ZeroFlags) (b : Byte) : Bool := z.z1 && z.z2 && decide (b.toNat ≤ 3)

/-- The arming of `EpStep` (R141), after the reset an escape makes. -/
def armZeros (z : ZeroFlags) (b : Byte) : ZeroFlags :=
  if b = 0#8 then (if z.z1 then { z with z2 := true } else { z with z1 := true }) else ⟨false, false⟩

/-- `EpStep(b)` (R141): the flags afterwards and the bytes emitted. -/
def epStep (z : ZeroFlags) (b : Byte) : ZeroFlags × Bytes :=
  if escapes z b then (armZeros ⟨false, false⟩ b, [0x03#8, b]) else (armZeros z b, [b])

/-- The steps of an EPINS from given flags; nothing is done at the end of the input (R144). -/
def epRun (z : ZeroFlags) : Bytes → ZeroFlags × Bytes
  | [] => (z, [])
  | b :: bytes => ((epRun (epStep z b).1 bytes).1, (epStep z b).2 ++ (epRun (epStep z b).1 bytes).2)

/-- EPINS (R140): the flags are cleared before the first byte (R143); a result too long to send is R157's. -/
def opEpins (bytes : Bytes) (s : State) : OpEnd :=
  let out := epRun ⟨false, false⟩ bytes
  if resultTooLong out.2.length then .fatal .capacityExceeded else .ok { s with ep := out.1 } (.bytes out.2)

/-- EPINS (R140). -/
def execEpins (bytes : Bytes) (s : State) : Outcome := execute .epins s (opEpins bytes s)

end Sys2Proof.Machine
end

