-- ==== Sys2Proof/Machine/IntegerCodec.lean ====
section
/-!
DEFINITION. The IntegerCodec: ENCF, ENCUE, ENCSE, DECUE, DECSE, WIDTHU, WIDTHS (41_integer_codec.md).
-/
namespace Sys2Proof.Machine

/-! ### Encoders -/

/-- ENCF (R111, and R112 for a value that does not fit). -/
def opEncf (width : BitVec 8) (value : Nat) (s : State) : OpEnd :=
  if s.cfg.nMax < width.toNat then .fatal .illegalCommand
  else if value < 2 ^ width.toNat then .ok s (.bits (bin value width.toNat))
  else if s.ctrl.strict then .fatal .encodingOverflow
  else .warning { s with status := s.status.withOverflow } (.bits (bin (value % 2 ^ width.toNat) width.toNat))

/-- ENCUE (R113). -/
def opEncue (value : Nat) (s : State) : OpEnd := .ok s (.bits (ue value))

/-- ENCSE (R114). -/
def opEncse (value : Int) (s : State) : OpEnd := .ok s (.bits (ue (codenum value)))

/-! ### Decoders -/

/-- How `DecodeCodeNum()` and its parts end (R115). -/
inductive CodeRead where
  | got (k : Nat) (c : Cursor)
  | exhausted (c : Cursor)
  | outOfRange (c : Cursor)
  deriving DecidableEq, Repr

/-- The prefix of a code (R115): counts zero bits up to the marker. `left` is how many more zero bits make the count
exceed `LZ_MAX`; `z` is the count so far. -/
def readPrefix : Nat → Nat → Cursor → CodeRead
  | 0, _, c => .outOfRange c
  | left + 1, z, c =>
    match readBit c with
    | .exhausted c' => .exhausted c'
    | .got true c' => .got z c'
    | .got false c' => readPrefix left (z + 1) c'

/-- `DecodeCodeNum()` (R115): prefix, marker, suffix; the code number is `2^z - 1 + s`. -/
def decodeCodeNum (lzMax : Nat) (c : Cursor) : CodeRead :=
  match readPrefix (lzMax + 1) 0 c with
  | .exhausted c' => .exhausted c'
  | .outOfRange c' => .outOfRange c'
  | .got z c' =>
    match readBits z 0 c' with
    | .exhausted c'' => .exhausted c''
    | .got suffix c'' => .got (2 ^ z - 1 + suffix) c''

/-- DECUE (R116). -/
def opDecue (s : State) : OpEnd :=
  match decodeCodeNum s.cfg.lzMax s.cursor with
  | .exhausted c => .signal { s with cursor := c } .exhausted
  | .outOfRange c => .signal { s with cursor := c } .decodeRange
  | .got k c =>
    if 2 ^ s.cfg.valW ≤ k then .signal { s with cursor := c } .decodeRange
    else .ok { s with cursor := c } (.value k)

/-- DECSE (R117): the range test is the one of a `VAL_W`-bit two's complement word. -/
def opDecse (s : State) : OpEnd :=
  match decodeCodeNum s.cfg.lzMax s.cursor with
  | .exhausted c => .signal { s with cursor := c } .exhausted
  | .outOfRange c => .signal { s with cursor := c } .decodeRange
  | .got k c =>
    if signedof k < -(2 ^ (s.cfg.valW - 1) : Int) ∨ (2 ^ (s.cfg.valW - 1) : Int) - 1 < signedof k then
      .signal { s with cursor := c } .decodeRange
    else .ok { s with cursor := c } (.value (twosWord s.cfg.valW (signedof k)))

/-! ### Width calculations -/

/-- WIDTHU (R118). -/
def opWidthu (hi : Nat) (s : State) : OpEnd := .ok s (.value (max 1 (bitlen hi)))

/-- WIDTHS (R119). -/
def opWidths (lo hi : Int) (s : State) : OpEnd :=
  let d := hi - lo
  if d < 0 then .fatal .illegalCommand
  else if d ≤ 1 then .ok s (.value 1)
  else .ok s (.value (bitlen (d.toNat - 1)))

/-! ### The commands -/

/-- ENCF (R111, R112). -/
def execEncf (width : BitVec 8) (value : Nat) (s : State) : Outcome := execute .encf s (opEncf width value s)

/-- ENCUE (R113). -/
def execEncue (value : Nat) (s : State) : Outcome := execute .encue s (opEncue value s)

/-- ENCSE (R114). -/
def execEncse (value : Int) (s : State) : Outcome := execute .encse s (opEncse value s)

/-- DECUE (R116). -/
def execDecue (s : State) : Outcome := execute .decue s (opDecue s)

/-- DECSE (R117). -/
def execDecse (s : State) : Outcome := execute .decse s (opDecse s)

/-- WIDTHU (R118). -/
def execWidthu (hi : Nat) (s : State) : Outcome := execute .widthu s (opWidthu hi s)

/-- WIDTHS (R119). -/
def execWidths (lo hi : Int) (s : State) : Outcome := execute .widths s (opWidths lo hi s)

end Sys2Proof.Machine
end

