-- ==== Sys2Proof/Machine/RbspPacker.lean ====
section
/-!
DEFINITION. The RbspPacker: PACK as the fold of its one-bit step over `ACC` and `CNT` (42_rbsp_packer.md R130, R131).
-/
namespace Sys2Proof.Machine

/-- `PackStep(b)` (R131): the accumulator afterwards and the bytes emitted. -/
def packStep (a : PackAcc) (b : Bool) : PackAcc × Bytes :=
  let acc := a.acc ||| BitVec.ofNat 8 (b.toNat <<< (7 - a.cnt.val))
  if a.cnt.val = 7 then (⟨0#8, 0⟩, [acc]) else (⟨acc, a.cnt + 1⟩, [])

/-- `PackFlush()` (R131). -/
def packFlush (a : PackAcc) : PackAcc × Bytes :=
  if a.cnt.val ≠ 0 then (⟨0#8, 0⟩, [a.acc]) else (a, [])

/-- The steps of a PACK from an accumulator, flush included. -/
def packRun (a : PackAcc) : Bits → PackAcc × Bytes
  | [] => packFlush a
  | b :: bits => ((packRun (packStep a b).1 bits).1, (packStep a b).2 ++ (packRun (packStep a b).1 bits).2)

/-- PACK (R130, R131): `ACC` and `CNT` are cleared before the first bit. -/
def opPack (bits : Bits) (s : State) : OpEnd :=
  .ok { s with rp := (packRun ⟨0#8, 0⟩ bits).1 } (.bytes (packRun ⟨0#8, 0⟩ bits).2)

/-- PACK (R130). -/
def execPack (bits : Bits) (s : State) : Outcome := execute .pack s (opPack bits s)

end Sys2Proof.Machine
end

