-- ==== Sys2Proof/Machine/System.lean ====
section
/-!
DEFINITION. The system commands: INIT, LOAD, DUMP, RDREG, WRCTRL (44_system_commands.md).
-/
namespace Sys2Proof.Machine

/-- The register with number `r`, `x[r]` (R24), as a natural number; none from 6 on. -/
def readRegister (s : State) (r : Nat) : Option Nat :=
  match r with
  | 0 => some s.cursor.contents.len
  | 1 => some s.cursor.rbyte
  | 2 => some s.cursor.rbit.val
  | 3 => some s.cursor.wbit.val
  | 4 => some s.ctrl.word.toNat
  | 5 => some s.status.word.toNat
  | _ => none

/-- INIT (R150): the state it leaves is the reset state but for `CTRL` and `LAST` (R23), the hidden state included. -/
def opInit (s : State) : OpEnd := .ok (clearHidden (newSession s [])) .none

/-- LOAD (R151). -/
def opLoad (bytes : Bytes) (s : State) : OpEnd :=
  if Config.exceedsCap s.cfg bytes.length then .fatal .capacityExceeded else .ok (newSession s bytes) .none

/-- DUMP (R152, R157). -/
def opDump (s : State) : OpEnd :=
  if resultTooLong s.cursor.contents.len then .fatal .capacityExceeded
  else .ok s (.bytes (s.cursor.contents.read 0 s.cursor.contents.len))

/-- RDREG (R153, R24); a value that does not fit a value word is not defined by the spec (U9, log 10). -/
def opRdreg (r : BitVec 8) (s : State) : OpEnd :=
  match readRegister s r.toNat with
  | none => .fatal .illegalCommand
  | some v => if v < 2 ^ s.cfg.valW then .ok s (.value v) else .unclaimed .registerValueUndefined

/-- WRCTRL (R154). -/
def opWrctrl (c : BitVec 8) (s : State) : OpEnd :=
  if 1 < c.toNat then .fatal .illegalCommand else .ok { s with ctrl := { s.ctrl with strict := c.getLsbD 0 } } .none

/-- INIT (R150). -/
def execInit (s : State) : Outcome := execute .init s (opInit s)

/-- LOAD (R151). -/
def execLoad (bytes : Bytes) (s : State) : Outcome := execute .load s (opLoad bytes s)

/-- DUMP (R152). -/
def execDump (s : State) : Outcome := execute .dump s (opDump s)

/-- RDREG (R153). -/
def execRdreg (r : BitVec 8) (s : State) : Outcome := execute .rdreg s (opRdreg r s)

/-- WRCTRL (R154). -/
def execWrctrl (c : BitVec 8) (s : State) : Outcome := execute .wrctrl s (opWrctrl c s)

end Sys2Proof.Machine
end

