-- ==== Sys2Proof/Machine/Dispatch.lean ====
section
/-!
DEFINITION. One arm per command (R82): `Execute(cmd)` of 44_system_commands.md R155 for each.
-/
namespace Sys2Proof.Machine

def exec (i : Instr) (s : State) : Host.Outcome State Fault Refusal :=
  match i with
  -- system (44_system_commands.md)
  | .init => Sys2Proof.Machine.execInit s
  | .load bytes => Sys2Proof.Machine.execLoad bytes s
  | .dump => Sys2Proof.Machine.execDump s
  | .rdreg r => Sys2Proof.Machine.execRdreg r s
  | .wrctrl c => Sys2Proof.Machine.execWrctrl c s
  -- BitCursor (40_bitcursor.md)
  | .appbytes bytes => Sys2Proof.Machine.execAppbytes bytes s
  | .appbits bits => Sys2Proof.Machine.execAppbits bits s
  | .rdbytes n => Sys2Proof.Machine.execRdbytes n s
  | .rdbits n => Sys2Proof.Machine.execRdbits n s
  -- IntegerCodec (41_integer_codec.md)
  | .encf width value => Sys2Proof.Machine.execEncf width value s
  | .encue value => Sys2Proof.Machine.execEncue value s
  | .encse value => Sys2Proof.Machine.execEncse value s
  | .decue => Sys2Proof.Machine.execDecue s
  | .decse => Sys2Proof.Machine.execDecse s
  | .widthu hi => Sys2Proof.Machine.execWidthu hi s
  | .widths lo hi => Sys2Proof.Machine.execWidths lo hi s
  -- RbspPacker (42_rbsp_packer.md)
  | .pack bits => Sys2Proof.Machine.execPack bits s
  -- EmulationPreventer (43_emulation_preventer.md)
  | .epins bytes => Sys2Proof.Machine.execEpins bytes s

end Sys2Proof.Machine
end

