-- ==== Sys2Proof/Decode.lean ====
section
/-!
DEFINITION. The binary form of commands (30_encoding.md part B): the opcode map, the decoder (total on any bytes, it
rejects by name), and the encoder. The decoder selects a row by the match and mask of R82; the encoder builds the
command word from its fields (R77). Every word travels most significant byte first (R77).
-/
namespace Sys2Proof

open Sys2Proof.Machine

/-- The opcode map of R82. -/
def opcodeTable : List OpcodeRow :=
  [ ⟨.init, .z, 0x01000000#32, 0xFFFFFFFF#32⟩,
    ⟨.load, .py, 0x02000000#32, 0xFFFFFFFF#32⟩,
    ⟨.dump, .z, 0x03000000#32, 0xFFFFFFFF#32⟩,
    ⟨.rdreg, .z, 0x04000000#32, 0xFF00FFFF#32⟩,
    ⟨.wrctrl, .z, 0x05000000#32, 0xFF00FFFF#32⟩,
    ⟨.appbytes, .py, 0x10000000#32, 0xFFFFFFFF#32⟩,
    ⟨.appbits, .pb, 0x11000000#32, 0xFFFFFFFF#32⟩,
    ⟨.rdbytes, .v, 0x12000000#32, 0xFFFFFFFF#32⟩,
    ⟨.rdbits, .z, 0x13000000#32, 0xFF00FFFF#32⟩,
    ⟨.encf, .v, 0x20000000#32, 0xFF00FFFF#32⟩,
    ⟨.encue, .v, 0x21000000#32, 0xFFFFFFFF#32⟩,
    ⟨.encse, .v, 0x22000000#32, 0xFFFFFFFF#32⟩,
    ⟨.decue, .z, 0x23000000#32, 0xFFFFFFFF#32⟩,
    ⟨.decse, .z, 0x24000000#32, 0xFFFFFFFF#32⟩,
    ⟨.widthu, .v, 0x25000000#32, 0xFFFFFFFF#32⟩,
    ⟨.widths, .vv, 0x26000000#32, 0xFFFFFFFF#32⟩,
    ⟨.pack, .pb, 0x30000000#32, 0xFFFFFFFF#32⟩,
    ⟨.epins, .py, 0x40000000#32, 0xFFFFFFFF#32⟩ ]

/-- Does a command word select a row (R82)? -/
def OpcodeRow.matches (r : OpcodeRow) (cw : BitVec 32) : Bool := cw &&& r.mask == r.pattern

/-- The row a command word selects. -/
def selectRow (cw : BitVec 32) : Option OpcodeRow := opcodeTable.find? (·.matches cw)

/-- `OPC`, bits 31:24 of the command word (R77). -/
def opcOf (cw : BitVec 32) : BitVec 8 := cw.extractLsb' 24 8

/-- `W`, bits 23:16 of the command word (R77). -/
def wOf (cw : BitVec 32) : BitVec 8 := cw.extractLsb' 16 8

/-- `RSV`, bits 15:0 of the command word (R77). -/
def rsvOf (cw : BitVec 32) : BitVec 16 := cw.extractLsb' 0 16

/-- The row whose opcode a command word carries, whatever its other fields: it gives an illegal word its length (R84). -/
def opcodeRow (cw : BitVec 32) : Option OpcodeRow := opcodeTable.find? fun r => opcOf r.pattern == opcOf cw

/-- Why a word that matches no row is illegal (R83). -/
def wordFault (cw : BitVec 32) : IllegalReason :=
  if (opcodeRow cw).isNone then .unassignedOpcode
  else if rsvOf cw ≠ 0#16 then .reservedNotZero
  else .unusedWNotZero

/-! ### Operand words and payloads -/

/-- The first `n` bytes and the rest, if there are as many. -/
def takeBytes (n : Nat) (bs : Bytes) : Option (Bytes × Bytes) :=
  if n ≤ bs.length then some (bs.take n, bs.drop n) else none

/-- What the operand words of a command give: the operand or the reason it is illegal, and the bytes that follow. -/
abbrev Taken (α : Type) := Option (Except IllegalReason α × Bytes)

/-- A value word: `ceil(VAL_W/8)` bytes, right-aligned, unused high bits zero (R79; log 11). -/
def takeValue (c : Config) (bs : Bytes) : Taken Nat :=
  match takeBytes c.valBytes bs with
  | none => none
  | some (w, rest) => some (if beVal w < 2 ^ c.valW then .ok (beVal w) else .error .valueHighBits, rest)

/-- Two value words (format VV, R79). -/
def takeValues (c : Config) (bs : Bytes) : Taken (Nat × Nat) :=
  match takeValue c bs with
  | none => none
  | some (v, rest) =>
    match takeValue c rest with
    | none => none
    | some (v2, rest2) => some (v.bind fun a => v2.map fun b => (a, b), rest2)

/-- `COUNT`, 4 bytes (R80). -/
def takeCount (bs : Bytes) : Option (Nat × Bytes) :=
  (takeBytes (cntW / 8) bs).map fun p => (beVal p.1, p.2)

/-- A byte payload: `COUNT`, then as many bytes (R80). -/
def takePayloadBytes (bs : Bytes) : Taken Bytes :=
  match takeCount bs with
  | none => none
  | some (n, rest) => (takeBytes n rest).map fun p => (.ok p.1, p.2)

/-- A bit payload: `COUNT`, then `ceil(COUNT/8)` bytes in the layout of R60 whose unused low bits are zero (R80). -/
def takePayloadBits (bs : Bytes) : Taken Bits :=
  match takeCount bs with
  | none => none
  | some (n, rest) =>
    (takeBytes ((n + 7) / 8) rest).map fun p =>
      (if ((bitsOf p.1).drop n).all (! ·) then .ok ((bitsOf p.1).take n) else .error .padBits, p.2)

/-- Turns the operand taken into the command it belongs to. -/
def Taken.to {α : Type} (t : Taken α) (mk : α → Instr) : Taken Instr := t.map fun p => (p.1.map mk, p.2)

/-- The operands of an operation, read from the bytes after its command word (R78 to R80, R82). `none`: the bytes end
before the command does. -/
def takeOperands (c : Config) (op : Op) (w : BitVec 8) (bs : Bytes) : Taken Instr :=
  match op with
  | .init => some (.ok .init, bs)
  | .load => (takePayloadBytes bs).to .load
  | .dump => some (.ok .dump, bs)
  | .rdreg => some (.ok (.rdreg w), bs)
  | .wrctrl => some (.ok (.wrctrl w), bs)
  | .appbytes => (takePayloadBytes bs).to .appbytes
  | .appbits => (takePayloadBits bs).to .appbits
  | .rdbytes => (takeValue c bs).to .rdbytes
  | .rdbits => some (.ok (.rdbits w), bs)
  | .encf => (takeValue c bs).to (.encf w)
  | .encue => (takeValue c bs).to .encue
  | .encse => (takeValue c bs).to fun v => .encse (sext c.valW v)
  | .decue => some (.ok .decue, bs)
  | .decse => some (.ok .decse, bs)
  | .widthu => (takeValue c bs).to .widthu
  | .widths => (takeValues c bs).to fun p => .widths (sext c.valW p.1) (sext c.valW p.2)
  | .pack => (takePayloadBits bs).to .pack
  | .epins => (takePayloadBytes bs).to .epins

/-! ### The decoder -/

/-- What the decoder reads from the bytes the host presents. -/
inductive Decoded where
  /-- A command, and the bytes after it. -/
  | command (i : Instr) (rest : Bytes)
  /-- An illegal command, whose bytes are taken and discarded (R84), and the bytes after it. -/
  | illegal (why : IllegalReason) (rest : Bytes)
  /-- The bytes end before the command does (R157, U11). -/
  | incomplete
  deriving DecidableEq, Repr

/-- The bytes after the command the decoder read, legal or not. -/
def Decoded.rest? : Decoded → Option Bytes
  | .command _ rest => some rest
  | .illegal _ rest => some rest
  | .incomplete => none

/-- A legal word: its operands decide. -/
def decodeRow (c : Config) (r : OpcodeRow) (cw : BitVec 32) (bs : Bytes) : Decoded :=
  match takeOperands c r.op (wOf cw) bs with
  | none => .incomplete
  | some (.ok i, rest) => .command i rest
  | some (.error why, rest) => .illegal why rest

/-- A word that matches no row: an assigned opcode gives it the length of its format, otherwise it is the word alone
(R84). -/
def decodeIllegal (c : Config) (cw : BitVec 32) (bs : Bytes) : Decoded :=
  match opcodeRow cw with
  | none => .illegal (wordFault cw) bs
  | some r =>
    match takeOperands c r.op (wOf cw) bs with
    | none => .incomplete
    | some (_, rest) => .illegal (wordFault cw) rest

/-- The decoder. -/
def decode (c : Config) (bs : Bytes) : Decoded :=
  match takeBytes 4 bs with
  | none => .incomplete
  | some (w, rest) =>
    match selectRow (BitVec.ofNat 32 (beVal w)) with
    | some r => decodeRow c r (BitVec.ofNat 32 (beVal w)) rest
    | none => decodeIllegal c (BitVec.ofNat 32 (beVal w)) rest

/-! ### The encoder -/

/-- `OPC` of each operation: the high digit is the unit (R82). -/
def Op.opc : Op → BitVec 8
  | .init => 0x01#8
  | .load => 0x02#8
  | .dump => 0x03#8
  | .rdreg => 0x04#8
  | .wrctrl => 0x05#8
  | .appbytes => 0x10#8
  | .appbits => 0x11#8
  | .rdbytes => 0x12#8
  | .rdbits => 0x13#8
  | .encf => 0x20#8
  | .encue => 0x21#8
  | .encse => 0x22#8
  | .decue => 0x23#8
  | .decse => 0x24#8
  | .widthu => 0x25#8
  | .widths => 0x26#8
  | .pack => 0x30#8
  | .epins => 0x40#8

/-- The command word with these fields (R77). -/
def commandWord (opc w : BitVec 8) : BitVec 32 := (opc ++ w ++ 0#16 : BitVec 32)

/-- The four bytes of a command word (R77). -/
def commandWordBytes (opc w : BitVec 8) : Bytes := beBytes 4 (commandWord opc w).toNat

/-- An unsigned value word (R79). -/
def valueBytes (c : Config) (v : Nat) : Bytes := beBytes c.valBytes v

/-- A signed value word (R79). -/
def signedBytes (c : Config) (v : Int) : Bytes := valueBytes c (twosWord c.valW v)

/-- `COUNT` and a byte payload (R80). -/
def payloadBytes (bytes : Bytes) : Bytes := beBytes (cntW / 8) bytes.length ++ bytes

/-- `COUNT` and a bit payload (R80). -/
def payloadBits (bits : Bits) : Bytes := beBytes (cntW / 8) bits.length ++ bytesOf bits

/-- The bytes of a command (R77 to R80, R82). -/
def encode (c : Config) (i : Instr) : Bytes :=
  match i with
  | .init => commandWordBytes i.op.opc 0#8
  | .load bytes => commandWordBytes i.op.opc 0#8 ++ payloadBytes bytes
  | .dump => commandWordBytes i.op.opc 0#8
  | .rdreg r => commandWordBytes i.op.opc r
  | .wrctrl w => commandWordBytes i.op.opc w
  | .appbytes bytes => commandWordBytes i.op.opc 0#8 ++ payloadBytes bytes
  | .appbits bits => commandWordBytes i.op.opc 0#8 ++ payloadBits bits
  | .rdbytes n => commandWordBytes i.op.opc 0#8 ++ valueBytes c n
  | .rdbits n => commandWordBytes i.op.opc n
  | .encf width value => commandWordBytes i.op.opc width ++ valueBytes c value
  | .encue value => commandWordBytes i.op.opc 0#8 ++ valueBytes c value
  | .encse value => commandWordBytes i.op.opc 0#8 ++ signedBytes c value
  | .decue => commandWordBytes i.op.opc 0#8
  | .decse => commandWordBytes i.op.opc 0#8
  | .widthu hi => commandWordBytes i.op.opc 0#8 ++ valueBytes c hi
  | .widths lo hi => commandWordBytes i.op.opc 0#8 ++ signedBytes c lo ++ signedBytes c hi
  | .pack bits => commandWordBytes i.op.opc 0#8 ++ payloadBits bits
  | .epins bytes => commandWordBytes i.op.opc 0#8 ++ payloadBytes bytes

/-- The length of a command by its format (R84). -/
def commandLength (c : Config) : Instr → Nat
  | .init | .dump | .rdreg _ | .wrctrl _ | .rdbits _ | .decue | .decse => 4
  | .rdbytes _ | .encf _ _ | .encue _ | .encse _ | .widthu _ => 4 + (c.valW + 7) / 8
  | .widths _ _ => 4 + 2 * ((c.valW + 7) / 8)
  | .load bytes | .appbytes bytes | .epins bytes => 8 + bytes.length
  | .appbits bits | .pack bits => 8 + (bits.length + 7) / 8

/-! ### The words of the opcode table -/

/-- The bytes of the command whose bits are `w`, numbered as the opcode table numbers them (bit 0 the least significant
bit of the command word, the next word's bits counting on from it), every bit from `nbits` on zero. The operand words
of the opcode's format follow the command word (R78 to R80); payload items are zero. -/
def tableBytes (c : Config) (nbits w : Nat) : Bytes :=
  let v := w % 2 ^ nbits
  let cw := BitVec.ofNat 32 v
  let cwBytes := beBytes 4 cw.toNat
  match (opcodeRow cw).map OpcodeRow.format with
  | none | some .z => cwBytes
  | some .v => cwBytes ++ beBytes c.valBytes (v >>> 32)
  | some .vv => cwBytes ++ beBytes c.valBytes (v >>> 32) ++ beBytes c.valBytes (v >>> (32 + 8 * c.valBytes))
  | some .py =>
    let count := (v >>> 32) % 2 ^ cntW
    cwBytes ++ beBytes 4 count ++ List.replicate count 0#8
  | some .pb =>
    let count := (v >>> 32) % 2 ^ cntW
    cwBytes ++ beBytes 4 count ++ List.replicate ((count + 7) / 8) 0#8

/-- The instruction the decoder reads from the command whose bits are `w`, at the default parameters. -/
def decodeTableWord (nbits w : Nat) : Option Instr :=
  match decode Config.defaults (tableBytes Config.defaults nbits w) with
  | .command i _ => some i
  | .illegal _ _ => none
  | .incomplete => none

end Sys2Proof
end

