-- ==== Sys2Proof/Machine/Fetch.lean ====
section
/-!
DEFINITION. What the block does next: it serves a reset request between commands (R220), or takes the next command from
the bytes the host has presented (R6, R84). The commands never come from `contents` (R56).
-/
namespace Sys2Proof.Machine

/-- What comes next, with the state in which it is executed. -/
inductive Fetched where
  /-- The reset of R220. -/
  | reset (s : State)
  /-- A command; its bytes are taken from the input. -/
  | command (i : Instr) (s : State)
  /-- An illegal command; its bytes are taken and discarded (R84). -/
  | illegal (s : State)
  /-- The host has presented nothing (R8). -/
  | noCommand
  /-- The presented bytes end inside a command (R157, U11). -/
  | truncated

/-- Takes the next command. -/
def fetch (s : State) : Fetched :=
  if s.resetRequest then .reset s
  else if s.input = [] then .noCommand
  else
    match decode s.cfg s.input with
    | .command i rest => .command i { s with input := rest }
    | .illegal _ rest => .illegal { s with input := rest }
    | .incomplete => .truncated

end Sys2Proof.Machine
end

