-- ==== Sys2Proof/Machine/Step.lean ====
section
/-!
DEFINITION. One step of the machine: the execution of one command (R7), or the reset (R220).
-/
namespace Sys2Proof.Machine

/-- One step. -/
def step (s : State) : Host.Outcome State Fault Refusal :=
  match fetch s with
  | .reset t => .next (resetBlock t)
  | .command i t => exec i t
  | .illegal t => .next (execIllegal t)
  | .noCommand => .fault .noCommand
  | .truncated => .refused .truncatedCommand

/-- The host presents exactly one command: the one whose bits are `w`, numbered as the opcode table numbers them (log 3). -/
def State.withFetchWord (s : State) (nbits w : Nat) : State :=
  { s with input := Sys2Proof.tableBytes s.cfg nbits w, resetRequest := false }

end Sys2Proof.Machine
end

