-- ==== Sys2Proof/Machine/Pseudo.lean ====
section
/-!
DEFINITION. The pseudo-instructions of 30_encoding.md R86: host-side names for one or two commands, without opcodes of
their own. The buffer `$t` between two commands is the host's: it holds the result of the first command's response
(log 18).
-/
namespace Sys2Proof.Machine

/-- The pseudo-instructions (R86). -/
inductive Pseudo where
  | decf (n : BitVec 8)
  | packt (bits : Bits)
  | rbsp (bits : Bits)
  | putf (value : Nat) (width : BitVec 8)
  | putue (value : Nat)
  | putse (value : Int)
  deriving DecidableEq, Repr

/-- The bits a result carries; none when it carries no bits (log 18). -/
def Result.asBits : Result → Bits
  | .bits b => b
  | .none | .value _ | .bytes _ => []

/-- The bytes a result carries; none when it carries no bytes (log 18). -/
def Result.asBytes : Result → Bytes
  | .bytes b => b
  | .none | .value _ | .bits _ => []

/-- The first command of an expansion (R86). PACKT and RBSP append the caller's stop bit (R132). -/
def Pseudo.first : Pseudo → Instr
  | .decf n => .rdbits n
  | .packt bits => .pack (bits ++ [true])
  | .rbsp bits => .pack (bits ++ [true])
  | .putf value width => .encf width value
  | .putue value => .encue value
  | .putse value => .encse value

/-- The second command of an expansion, given the first one's result (R86). -/
def Pseudo.second (p : Pseudo) (t : Result) : Option Instr :=
  match p with
  | .decf _ => none
  | .packt _ => none
  | .rbsp _ => some (.epins t.asBytes)
  | .putf _ _ => some (.appbits t.asBits)
  | .putue _ => some (.appbits t.asBits)
  | .putse _ => some (.appbits t.asBits)

/-- The result of the latest response. -/
def State.lastResult (s : State) : Result := (s.responses.getLast?.map Response.result).getD .none

/-- The expansion run command by command; the second is issued whatever the first one's status (R86). -/
def Pseudo.run (p : Pseudo) (s : State) : Outcome :=
  match exec p.first s with
  | .next t =>
    match p.second t.lastResult with
    | none => .next t
    | some i => exec i t
  | .fault f => .fault f
  | .refused r => .refused r

end Sys2Proof.Machine
end

