-- ==== Sys2Proof/Machine/Transport.lean ====
section
/-!
DEFINITION. The binary form of responses (30_encoding.md R81): the response word, then a value word, a bit payload or a
byte payload, every word most significant byte first (R77).
-/
namespace Sys2Proof.Machine

/-- `KIND` of a result (R81). -/
def Result.kind : Result → BitVec 4
  | .none => 0#4
  | .value _ => 1#4
  | .bits _ => 2#4
  | .bytes _ => 3#4

/-- The response word: `STAT`, `KIND`, 24 zero bits (R81). -/
def Response.word (r : Response) : BitVec 32 := (r.status.code ++ r.result.kind ++ 0#24 : BitVec 32)

/-- What follows the response word (R81). -/
def Result.encode (c : Config) : Result → Bytes
  | .none => []
  | .value w => valueBytes c w
  | .bits b => payloadBits b
  | .bytes b => payloadBytes b

/-- The bytes of a response (R81). -/
def Response.encode (c : Config) (r : Response) : Bytes := beBytes 4 r.word.toNat ++ r.result.encode c

/-- The bytes the host has received so far. -/
def State.output (s : State) : Bytes := s.responses.flatMap (Response.encode s.cfg)

end Sys2Proof.Machine
end

