-- ==== Sys2Proof/Safety.lean ====
section
/-!
DEFINITION. The terms the statements are written in: the invariant of R21, the cursor seen as a bit stream, what a
command leaves, and the properties of the escaped form (R71).
-/
namespace Sys2Proof.Machine

/-! ### The invariant -/

/-- R21 items 2 to 5 (item 1 is the type of `rbit` and `wbit`): the read pointer stands in `contents`, a partly
consumed byte exists, the pad bits of a partly written last byte are zero, and `CAP` holds. -/
abbrev Cursor.Ok (cfg : Config) (c : Cursor) : Prop :=
  c.rbyte ≤ c.contents.len + (if cfg.rbTail = .overshoot then 1 else 0) ∧
  (c.rbit ≠ 0 → c.rbyte < c.contents.len) ∧
  (c.wbit ≠ 0 → 1 ≤ c.contents.len) ∧
  (c.wbit ≠ 0 → ∀ b ∈ c.contents.bytes.getLast?, b.toNat % 2 ^ (8 - c.wbit.val) = 0) ∧
  (∀ cap ∈ cfg.cap, c.contents.len ≤ cap)

/-- The invariant of the block: R21, `CAUSE` is 0 while `FAULT = 0` and a fatal code while `FAULT = 1` (R17), and PACK
leaves its accumulator empty (R131). -/
abbrev State.Inv (s : State) : Prop :=
  s.cursor.Ok s.cfg ∧
  (s.ep.z2 = true → s.ep.z1 = true) ∧
  (s.status.fault = false → s.status.cause = .ok) ∧
  (s.status.fault = true → s.status.cause = .encodingOverflow ∨ s.status.cause = .illegalCommand ∨
    s.status.cause = .capacityExceeded) ∧
  s.rp = ⟨0#8, 0⟩

/-! ### The cursor as a bit stream -/

/-- The read pointer as a count of bits from the start of `contents`. -/
def Cursor.readPos (c : Cursor) : Nat := 8 * c.rbyte + c.rbit.val

/-- The write pointer (`LEN`, `WBIT`) as a count of bits from the start of `contents` (R14, R15). -/
def Cursor.writePos (c : Cursor) : Nat :=
  if c.wbit.val = 0 then 8 * c.contents.len else 8 * (c.contents.len - 1) + c.wbit.val

/-- The bits from the read pointer to the end of `contents`, pad bits of the last byte included (R52). -/
def Cursor.unread (c : Cursor) : Bits := (bitsOf c.contents.bytes).drop c.readPos

/-! ### What a command leaves -/

/-- A state after a command that ended with this status and result: `LAST`, the response and `pc`, and nothing else
(R155 step 5). -/
def State.after (s : State) (code : StatusCode) (r : Result) : State :=
  { s with
    status := { s.status with last := code }
    responses := s.responses ++ [⟨code, r⟩]
    pc := s.pc + 1 }

/-- A state after a fatal fault taken with `FAULT = 0` (R201). -/
def State.afterFault (s : State) (f : FatalFault) : State :=
  { s with
    status := { s.status with fault := true, cause := f.status, last := f.status }
    responses := s.responses ++ [⟨f.status, .none⟩]
    pc := s.pc + 1 }

/-- A state after a command that is answered with a fatal fault: `Faulted` when the session is already over (R155
steps 1 and 4). -/
def State.afterFatal (s : State) (f : FatalFault) : State :=
  if s.status.fault then s.after .faulted .none else s.afterFault f

/-- The commands of a list executed in order; none when one of them has no next state. -/
def execAll : List Instr → State → Option State
  | [], s => some s
  | i :: is, s =>
    match exec i s with
    | .next t => execAll is t
    | .fault _ => none
    | .refused _ => none

/-! ### The bytes of a format -/

/-- Any bytes that have the length a format gives what follows the command word, whatever they say (R78 to R80, R84). -/
def FormatBytes (c : Config) : Format → Bytes → Prop
  | .z, bs => bs = []
  | .v, bs => bs.length = (c.valW + 7) / 8
  | .vv, bs => bs.length = 2 * ((c.valW + 7) / 8)
  | .py, bs => ∃ payload : Bytes, payload.length < 2 ^ 32 ∧ bs = beBytes 4 payload.length ++ payload
  | .pb, bs => ∃ (n : Nat) (payload : Bytes), n < 2 ^ 32 ∧ payload.length = (n + 7) / 8 ∧ bs = beBytes 4 n ++ payload

/-! ### Fields of a stream (R99, R122) -/

/-- A value written into a stream by one of the three codes. -/
inductive Field where
  | fixed (v w : Nat)
  | ue (v : Nat)
  | se (v : Int)
  deriving DecidableEq, Repr

/-- The code of a field (R61, R62, R65). -/
def Field.bits : Field → Bits
  | .fixed v w => bin v w
  | .ue v => Machine.ue v
  | .se v => Machine.ue (codenum v)

/-- The command that reads a field back (R97, R116, R117). -/
def Field.read : Field → Instr
  | .fixed _ w => .rdbits (BitVec.ofNat 8 w)
  | .ue _ => .decue
  | .se _ => .decse

/-- The value word its read returns (R81, R79). -/
def Field.word (c : Config) : Field → Nat
  | .fixed v _ => v
  | .ue v => v
  | .se v => twosWord c.valW v

/-- A field the codes can carry at these parameters (R99, R122). -/
def Field.Fits (c : Config) : Field → Prop
  | .fixed v w => w ≤ c.nMax ∧ v < 2 ^ w
  | .ue v => v < 2 ^ c.valW
  | .se v => -(2 ^ (c.valW - 1) : Int) ≤ v ∧ v < (2 ^ (c.valW - 1) : Int)

/-! ### The escaped form (R70, R71, R141) -/

/-- No three bytes `00 00 00`, `00 00 01` or `00 00 02` in a row at any position (R71 item 1). -/
def StartCodeFree (bytes : Bytes) : Prop :=
  ∀ k : Nat, ∀ b : Byte, bytes[k]? = some 0#8 → bytes[k + 1]? = some 0#8 → bytes[k + 2]? = some b → 3 ≤ b.toNat

/-- Removes every `03` that directly follows two zero bytes (R71 item 3); `run` is the number of zero bytes just before. -/
def unescapeFrom (run : Nat) : Bytes → Bytes
  | [] => []
  | b :: bytes =>
    if 2 ≤ run ∧ b = 0x03#8 then unescapeFrom 0 bytes
    else b :: unescapeFrom (if b = 0#8 then run + 1 else 0) bytes

/-- The equivalent form of `EpStep` with one counter of 0 to 2 (R141). -/
def counterEscape (zc : Nat) : Bytes → Bytes
  | [] => []
  | b :: bytes =>
    let esc := zc = 2 ∧ b.toNat ≤ 3
    let zc' := if esc then 0 else zc
    (if esc then [0x03#8, b] else [b]) ++ counterEscape (if b = 0#8 then min (zc' + 1) 2 else 0) bytes

end Sys2Proof.Machine
end

