-- ==== Sys2Proof/Certificates/Slice0/Obligations.lean ====
section
/-!
DEFINITION. The statements about the model, written from the numbered rules of spec/. Each docstring names its rules.
A statement about a next state gives the whole state, so it is the instruction's frame as well.
-/
open Sys2Proof Sys2Proof.Machine

/-! ### Encoding -/

/-- Command bytes written out in the spec's examples (95_test_vectors.md section 2) decode to the commands they stand
for. -/
def Obligations.WrittenWordsDecode : Prop :=
  decode Config.defaults [0x01, 0x00, 0x00, 0x00] = .command .init [] ∧
  decode Config.defaults [0x13, 0x03, 0x00, 0x00] = .command (.rdbits 3#8) [] ∧
  decode Config.defaults [0x20, 0x08, 0x00, 0x00, 0x00, 0x00, 0x00, 0x00, 0x00, 0x00, 0x00, 0x42] =
    .command (.encf 8#8 66) [] ∧
  decode Config.defaults [0x22, 0x00, 0x00, 0x00, 0xFF, 0xFF, 0xFF, 0xFF, 0xFF, 0xFF, 0xFF, 0xFE] =
    .command (.encse (-2)) [] ∧
  decode Config.defaults [0x40, 0x00, 0x00, 0x00, 0x00, 0x00, 0x00, 0x03, 0x00, 0x00, 0x01] =
    .command (.epins [0x00, 0x00, 0x01]) [] ∧
  decode Config.defaults [0x11, 0x00, 0x00, 0x00, 0x00, 0x00, 0x00, 0x05, 0xB8] =
    .command (.appbits [true, false, true, true, true]) [] ∧
  decode Config.defaults [0x00, 0x00, 0x00, 0x00] = .illegal .unassignedOpcode []

/-- Decoding the bytes of any command that can be presented, at any legal parameters and whatever follows, gives the
command back with every operand (R77 to R80, R82). -/
def Obligations.DecodeInvertsEncode : Prop :=
  ∀ (c : Config) (i : Instr) (rest : Bytes), c.wf = true → i.wf c = true →
    decode c (encode c i ++ rest) = .command i rest

/-- A command has one encoding: the bytes a command was decoded from are the bytes the encoder gives it (R77 to R80; for
bit payloads decision D3). That a value word with a one among its unused high bits is no command, which matters for a
`VAL_W` that is no multiple of 8, is the model's reading of R79 and R196 (log 11, DEDUCED). -/
def Obligations.EncodeInvertsDecode : Prop :=
  ∀ (c : Config) (bs : Bytes) (i : Instr) (rest : Bytes), c.wf = true → decode c bs = .command i rest →
    i.wf c = true ∧ bs = encode c i ++ rest

/-- No command word selects two rows of the opcode map (R82). -/
def Obligations.OpcodeRowsDoNotOverlap : Prop :=
  ∀ (cw : BitVec 32) (r₁ r₂ : OpcodeRow), r₁ ∈ opcodeTable → r₂ ∈ opcodeTable →
    cw &&& r₁.mask = r₁.pattern → cw &&& r₂.mask = r₂.pattern → r₁ = r₂

/-- A command word that matches no row is illegal: it is answered `IllegalCommand` (or `Faulted`), and nothing else
happens. With an unassigned opcode it is 4 bytes long; with an assigned one the operand words and payload of its format
are taken and discarded, whatever they say (R83, R84, R196, R201). -/
def Obligations.UnmatchedWordIsIllegal : Prop :=
  (∀ (s : State) (cw : BitVec 32) (rest : Bytes), s.resetRequest = false →
    (∀ r ∈ opcodeTable, r.pattern.extractLsb' 24 8 ≠ cw.extractLsb' 24 8) →
    s.input = beBytes 4 cw.toNat ++ rest →
    step s = .next (State.afterFatal { s with input := rest } .illegalCommand)) ∧
  (∀ (s : State) (cw : BitVec 32) (r : OpcodeRow) (operands rest : Bytes), s.resetRequest = false →
    (∀ r' ∈ opcodeTable, cw &&& r'.mask ≠ r'.pattern) →
    r ∈ opcodeTable → r.pattern.extractLsb' 24 8 = cw.extractLsb' 24 8 → FormatBytes s.cfg r.format operands →
    s.input = beBytes 4 cw.toNat ++ operands ++ rest →
    step s = .next (State.afterFatal { s with input := rest } .illegalCommand))

/-- A bit payload with a one among its pad bits makes APPBITS and PACK illegal: `COUNT` is `n`, the payload has
`ceil(n/8)` bytes, and some bit from position `n` on is one (R80, R83, R196). -/
def Obligations.NonZeroPadBitsAreIllegal : Prop :=
  ∀ (s : State) (opc : BitVec 8) (n k : Nat) (payload rest : Bytes), s.resetRequest = false →
    (opc = 0x11#8 ∨ opc = 0x30#8) → n < 2 ^ 32 → payload.length = (n + 7) / 8 → n ≤ k →
    (bitsOf payload)[k]? = some true →
    s.input = [opc, 0x00#8, 0x00#8, 0x00#8] ++ beBytes 4 n ++ payload ++ rest →
    step s = .next (State.afterFatal { s with input := rest } .illegalCommand)

/-- A value word with a one among its unused high bits makes the commands of formats V and VV illegal: bit `k` of the
word, first bit first, stands above the `VAL_W` low bits. That they must be zero is R79; that the command is then an
`IllegalCommand`, whose bytes are taken whole, is the model's reading of R196's reserved fields (log 11, DEDUCED). There
are no such bits where `VAL_W` is a multiple of 8. -/
def Obligations.ValueHighBitsAreIllegal : Prop :=
  (∀ (s : State) (opc w : BitVec 8) (k : Nat) (word rest : Bytes), s.resetRequest = false →
    (opc = 0x20#8 ∨ ((opc = 0x12#8 ∨ opc = 0x21#8 ∨ opc = 0x22#8 ∨ opc = 0x25#8) ∧ w = 0x00#8)) →
    word.length = (s.cfg.valW + 7) / 8 → k + s.cfg.valW < 8 * word.length → (bitsOf word)[k]? = some true →
    s.input = [opc, w, 0x00#8, 0x00#8] ++ word ++ rest →
    step s = .next (State.afterFatal { s with input := rest } .illegalCommand)) ∧
  (∀ (s : State) (k : Nat) (word₁ word₂ rest : Bytes), s.resetRequest = false →
    word₁.length = (s.cfg.valW + 7) / 8 → word₂.length = (s.cfg.valW + 7) / 8 → k + s.cfg.valW < 8 * word₁.length →
    ((bitsOf word₁)[k]? = some true ∨ (bitsOf word₂)[k]? = some true) →
    s.input = [0x26#8, 0x00#8, 0x00#8, 0x00#8] ++ word₁ ++ word₂ ++ rest →
    step s = .next (State.afterFatal { s with input := rest } .illegalCommand))

/-- The bytes of a response (R81): the response word with `STAT`, `KIND` and zeros, then a value word, or `COUNT` and
the payload; the status codes are those of R191. -/
def Obligations.ResponseBytesLayout : Prop :=
  [StatusCode.ok, .exhausted, .decodeRange, .overflowWarning, .encodingOverflow, .illegalCommand, .capacityExceeded,
    .faulted].map StatusCode.code = [0#4, 1#4, 2#4, 3#4, 8#4, 9#4, 10#4, 15#4] ∧
  ∀ (c : Config) (code : StatusCode) (w : Nat) (bits : Bits) (bytes : Bytes),
    Response.encode c ⟨code, .none⟩ = [BitVec.ofNat 8 (16 * code.code.toNat), 0#8, 0#8, 0#8] ∧
    Response.encode c ⟨code, .value w⟩ =
      [BitVec.ofNat 8 (16 * code.code.toNat + 1), 0#8, 0#8, 0#8] ++ beBytes ((c.valW + 7) / 8) w ∧
    Response.encode c ⟨code, .bits bits⟩ =
      [BitVec.ofNat 8 (16 * code.code.toNat + 2), 0#8, 0#8, 0#8] ++ beBytes 4 bits.length ++ bytesOf bits ∧
    Response.encode c ⟨code, .bytes bytes⟩ =
      [BitVec.ofNat 8 (16 * code.code.toNat + 3), 0#8, 0#8, 0#8] ++ beBytes 4 bytes.length ++ bytes

/-! ### Steps and reset -/

/-- When the presented bytes decode to a command and no reset is requested, a step takes those bytes and executes the
command. -/
def Obligations.StepRunsDecodedCommand : Prop :=
  ∀ (s : State) (i : Instr) (rest : Bytes), s.resetRequest = false → decode s.cfg s.input = .command i rest →
    step s = exec i { s with input := rest }

/-- The reset between commands puts every piece of the block's state at the values of R23 and leaves the host's side
alone (R220, R221; the request is the model's, log 7). -/
def Obligations.ResetRequestResetsBlock : Prop :=
  ∀ s : State, s.resetRequest = true →
    step s = .next
      { s with
        cursor := ⟨⟨[]⟩, 0, 0, 0⟩
        ctrl := ⟨s.cfg.strictReset⟩
        status := ⟨false, false, .ok, .ok⟩
        ep := ⟨false, false⟩
        rp := ⟨0#8, 0⟩
        resetRequest := false }

/-- The state after reset is the table of R23, read through the registers of R24 at the default parameters, and
satisfies the invariant at every parameter. -/
def Obligations.ResetLeavesTableAndInvariant : Prop :=
  State.reset.cursor.contents.bytes = [] ∧
  (List.range 6).map (readRegister State.reset) = [some 0, some 0, some 0, some 0, some 1, some 0] ∧
  State.reset.ep = ⟨false, false⟩ ∧ State.reset.rp = ⟨0#8, 0⟩ ∧
  ∀ c : Config, (State.resetWith c).Inv ∧ (State.resetWith c).ctrl.strict = c.strictReset

/-! ### Whole-machine rules -/

/-- Every step keeps the model's invariant. From R21: the read pointer stays in the buffer (one beyond under
`overshoot`), a partly consumed byte exists, pad bits are zero, `CAP` holds, the escape flags are never (0, 1). From R17
and R201: `CAUSE` agrees with `FAULT`. The last conjunct, that PACK's accumulator is empty between commands, is the
model's choice: it keeps what `PackFlush` leaves (R131), where U14 leaves the value open (log 8, DESIGN CHOICE). -/
def Obligations.StepKeepsInvariant : Prop :=
  ∀ s t : State, s.Inv → step s = .next t → t.Inv

/-- Commands execute one after another in the order the host presents them (R158): a step takes from the front of the
input exactly one command, legal or not, which is what the decoder reads there and nothing behind it (R84); it advances
`pc` by one whatever the status and sends exactly one response; `LAST` is its status (R190) and a result comes only with
`OK` or `OverflowWarning` (R81). That the parameters and the reset request stay is the model's choice (logs 1 and 7). -/
def Obligations.CommandAdvancesPcAndAnswersOnce : Prop :=
  ∀ s t : State, s.resetRequest = false → step s = .next t →
    t.pc = s.pc + 1 ∧ t.cfg = s.cfg ∧ t.resetRequest = s.resetRequest ∧
    (decode s.cfg s.input).rest? = some t.input ∧
    (∃ taken : Bytes, 4 ≤ taken.length ∧ s.input = taken ++ t.input ∧ (decode s.cfg taken).rest? = some []) ∧
    ∃ r : Response, t.responses = s.responses ++ [r] ∧ t.status.last = r.status ∧
      (r.result ≠ .none → r.status = .ok ∨ r.status = .overflowWarning)

/-- Every command is answered in every state; the one exception is RDREG of a `LEN` or `RBYTE` that does not fit a
value word, which the spec tells a model to refuse (R190, R24). -/
def Obligations.EveryCommandIsAnswered : Prop :=
  ∀ (i : Instr) (s : State),
    (∃ t, exec i s = .next t) ∨
    (exec i s = .refused .registerValueUndefined ∧
      ((i = .rdreg 0#8 ∧ 2 ^ s.cfg.valW ≤ s.cursor.contents.bytes.length) ∨
       (i = .rdreg 1#8 ∧ 2 ^ s.cfg.valW ≤ s.cursor.rbyte) ∨
       (∃ r : BitVec 8, i = .rdreg r ∧ s.cfg.valW < 12)))

/-- While `FAULT = 1` every command other than INIT, LOAD, DUMP and RDREG is answered `Faulted` and changes nothing
but `LAST`; so is one of the four that would itself raise a fatal fault (R156, R203). -/
def Obligations.FaultStateRefusesWork : Prop :=
  ∀ (i : Instr) (s : State), s.status.fault = true →
    ((i.op ≠ .init ∧ i.op ≠ .load ∧ i.op ≠ .dump ∧ i.op ≠ .rdreg) ∨
      (∃ bytes cap, i = .load bytes ∧ s.cfg.cap = some cap ∧ cap < bytes.length) ∨
      (i = .dump ∧ 2 ^ 32 ≤ s.cursor.contents.bytes.length) ∨
      (∃ r : BitVec 8, i = .rdreg r ∧ 5 < r.toNat)) →
    exec i s = .next (s.after .faulted .none)

/-- Fault entry (R201): when a command, legal or not, takes the block from `FAULT = 0` to `FAULT = 1`, exactly `FAULT`,
`CAUSE` and `LAST` are written, the response carries the code and no result, and nothing else changes: the command has
had no effect. -/
def Obligations.FatalFaultEntryIsPrecise : Prop :=
  (∀ (i : Instr) (s t : State), s.status.fault = false → exec i s = .next t → t.status.fault = true →
    ∃ f : FatalFault, t = s.afterFault f) ∧
  (∀ s t : State, s.status.fault = false → step s = .next t → t.status.fault = true →
    ∃ (f : FatalFault) (rest : Bytes), t = State.afterFault { s with input := rest } f)

/-- The fault state ends only by reset, or by a command that decodes to INIT or LOAD, which clears `OVFW` and `CAUSE`
as well and begins with a new cursor (R202, R198). -/
def Obligations.FaultEndsOnlyByNewSession : Prop :=
  ∀ s t : State, s.status.fault = true → step s = .next t → t.status.fault = false →
    t.status.ovfw = false ∧ t.status.cause = .ok ∧
    (s.resetRequest = true ∨
      ∃ rest, (decode s.cfg s.input = .command .init rest ∧ t.cursor = ⟨⟨[]⟩, 0, 0, 0⟩) ∨
        ∃ bytes, decode s.cfg s.input = .command (.load bytes) rest ∧ t.cursor = ⟨⟨bytes⟩, 0, 0, 0⟩)

/-- Only WRCTRL and reset write `CTRL` (R220, R10). -/
def Obligations.CtrlWrittenOnlyByWrctrlOrReset : Prop :=
  ∀ s t : State, step s = .next t → t.ctrl ≠ s.ctrl →
    s.resetRequest = true ∨ ∃ w rest, decode s.cfg s.input = .command (.wrctrl w) rest

/-- Outside INIT and LOAD, `contents` never gets shorter, no byte but the last one ever changes, and the last one only
under APPBITS with `WBIT != 0` (R11). -/
def Obligations.ContentsChangeOnlyAtEnd : Prop :=
  ∀ (i : Instr) (s t : State), i.op ≠ .init → i.op ≠ .load → exec i s = .next t →
    s.cursor.contents.len ≤ t.cursor.contents.len ∧
    (∀ a, a + 1 < s.cursor.contents.len → t.cursor.contents.byte? a = s.cursor.contents.byte? a) ∧
    ((i.op ≠ .appbits ∨ s.cursor.wbit = 0) →
      ∀ a, a < s.cursor.contents.len → t.cursor.contents.byte? a = s.cursor.contents.byte? a)

/-- The read pointer never moves back within a session (R12), and the two pointers are independent: no command other
than the four reads moves the read pointer, and no command other than the two writes changes `contents` or `WBIT`
(R15, R40). -/
def Obligations.PointersAreIndependentAndMonotone : Prop :=
  ∀ (i : Instr) (s t : State), i.op ≠ .init → i.op ≠ .load → exec i s = .next t →
    s.cursor.readPos ≤ t.cursor.readPos ∧
    (i.op ≠ .rdbits → i.op ≠ .rdbytes → i.op ≠ .decue → i.op ≠ .decse →
      t.cursor.rbyte = s.cursor.rbyte ∧ t.cursor.rbit = s.cursor.rbit) ∧
    (i.op ≠ .appbytes → i.op ≠ .appbits →
      t.cursor.contents = s.cursor.contents ∧ t.cursor.wbit = s.cursor.wbit)

/-! ### System commands -/

/-- INIT creates the empty cursor and clears `FAULT`, `OVFW` and `CAUSE`, in every state; `CTRL` is kept (R150). The
hidden `Z1`, `Z2`, `ACC` and `CNT` are cleared too, for the state after INIT is the reset state but for `CTRL` and `LAST`
(R23). -/
def Obligations.InitCreatesEmptyCursor : Prop :=
  ∀ s : State,
    exec .init s = .next
      { s with
        cursor := ⟨⟨[]⟩, 0, 0, 0⟩
        status := ⟨false, false, .ok, .ok⟩
        ep := ⟨false, false⟩
        rp := ⟨0#8, 0⟩
        responses := s.responses ++ [⟨.ok, .none⟩]
        pc := s.pc + 1 }

/-- The state after INIT is the state after reset, except that INIT leaves `CTRL` as it was and writes `LAST` with its
own status (R23); on the host's side INIT is answered and counted, the reset serves its request (R25; the request is the
model's, log 7). -/
def Obligations.InitLeavesResetState : Prop :=
  ∀ s : State, ∃ u : State, step { s with resetRequest := true } = .next u ∧
    exec .init s = .next
      { u with
        ctrl := s.ctrl
        status := { u.status with last := .ok }
        resetRequest := s.resetRequest
        responses := s.responses ++ [⟨.ok, .none⟩]
        pc := s.pc + 1 }

/-- LOAD creates the cursor with the payload, all pointers zero, in every state; a payload longer than `CAP` is the
fatal `CapacityExceeded` and the old cursor is kept (R151, R50). That the hidden `Z1`, `Z2`, `ACC` and `CNT` are kept is
the model's choice, from the pseudocode of R151 (log 8, DESIGN CHOICE). -/
def Obligations.LoadCreatesCursor : Prop :=
  ∀ (s : State) (bytes : Bytes),
    ((∀ cap, s.cfg.cap = some cap → bytes.length ≤ cap) →
      exec (.load bytes) s = .next
        { s with
          cursor := ⟨⟨bytes⟩, 0, 0, 0⟩
          status := ⟨false, false, .ok, .ok⟩
          responses := s.responses ++ [⟨.ok, .none⟩]
          pc := s.pc + 1 }) ∧
    (∀ cap, s.cfg.cap = some cap → cap < bytes.length →
      exec (.load bytes) s = .next (s.afterFatal .capacityExceeded))

/-- DUMP returns all of `contents`, in every state, and changes nothing; a buffer of `2^CNT_W` bytes or more is the
fatal `CapacityExceeded` (R152, R157). -/
def Obligations.DumpReturnsContents : Prop :=
  ∀ s : State,
    (s.cursor.contents.bytes.length < 2 ^ 32 →
      exec .dump s = .next (s.after .ok (.bytes s.cursor.contents.bytes))) ∧
    (2 ^ 32 ≤ s.cursor.contents.bytes.length → exec .dump s = .next (s.afterFatal .capacityExceeded))

/-- RDREG returns the register as the previous command left it, in every state, and changes nothing else; a number
above 5 is `IllegalCommand` (R153, R24). A `LEN` or `RBYTE` that does not fit a value word is refused (R24, log 10). -/
def Obligations.RdregReturnsRegister : Prop :=
  ∀ s : State, 12 ≤ s.cfg.valW →
    (s.cursor.contents.bytes.length < 2 ^ s.cfg.valW →
      exec (.rdreg 0#8) s = .next (s.after .ok (.value s.cursor.contents.bytes.length))) ∧
    (s.cursor.rbyte < 2 ^ s.cfg.valW → exec (.rdreg 1#8) s = .next (s.after .ok (.value s.cursor.rbyte))) ∧
    exec (.rdreg 2#8) s = .next (s.after .ok (.value s.cursor.rbit.val)) ∧
    exec (.rdreg 3#8) s = .next (s.after .ok (.value s.cursor.wbit.val)) ∧
    exec (.rdreg 4#8) s = .next (s.after .ok (.value (if s.ctrl.strict then 1 else 0))) ∧
    exec (.rdreg 5#8) s = .next (s.after .ok (.value
      ((if s.status.fault then 1 else 0) + (if s.status.ovfw then 2 else 0) +
        16 * s.status.cause.code.toNat + 256 * s.status.last.code.toNat))) ∧
    (∀ r : BitVec 8, 5 < r.toNat → exec (.rdreg r) s = .next (s.afterFatal .illegalCommand)) ∧
    (2 ^ s.cfg.valW ≤ s.cursor.contents.bytes.length →
      exec (.rdreg 0#8) s = .refused .registerValueUndefined) ∧
    (2 ^ s.cfg.valW ≤ s.cursor.rbyte → exec (.rdreg 1#8) s = .refused .registerValueUndefined)

/-- WRCTRL writes `STRICT` from bit 0 and nothing else; a value with a reserved bit is `IllegalCommand` (R154, R16). -/
def Obligations.WrctrlWritesStrict : Prop :=
  ∀ s : State, s.status.fault = false →
    exec (.wrctrl 0#8) s = .next ({ s with ctrl := ⟨false⟩ }.after .ok .none) ∧
    exec (.wrctrl 1#8) s = .next ({ s with ctrl := ⟨true⟩ }.after .ok .none) ∧
    ∀ c : BitVec 8, 1 < c.toNat → exec (.wrctrl c) s = .next (s.afterFault .illegalCommand)

/-- DUMP, then LOAD of the bytes it returned, restores `contents` and sets both read offsets and `WBIT` to zero (R230,
R55). -/
def Obligations.DumpThenLoadRestoresContents : Prop :=
  ∀ s : State, s.cursor.contents.bytes.length < 2 ^ 32 →
    (∀ cap, s.cfg.cap = some cap → s.cursor.contents.bytes.length ≤ cap) →
    ∃ t u : State, exec .dump s = .next t ∧ exec (.load t.lastResult.asBytes) t = .next u ∧
      u.cursor = ⟨s.cursor.contents, 0, 0, 0⟩ ∧ u.ctrl = s.ctrl

/-! ### BitCursor -/

/-- APPBYTES forces byte alignment and appends its bytes; `c = 0` still clears `WBIT`. A result longer than `CAP` is
the fatal `CapacityExceeded` and `WBIT` is not cleared (R91, R50, R46). -/
def Obligations.AppbytesAppends : Prop :=
  ∀ (s : State) (bytes : Bytes), s.status.fault = false →
    ((∀ cap, s.cfg.cap = some cap → s.cursor.contents.bytes.length + bytes.length ≤ cap) →
      exec (.appbytes bytes) s = .next
        ({ s with
            cursor := { s.cursor with wbit := 0, contents := ⟨s.cursor.contents.bytes ++ bytes⟩ } }.after .ok .none)) ∧
    (∀ cap, s.cfg.cap = some cap → cap < s.cursor.contents.bytes.length + bytes.length →
      exec (.appbytes bytes) s = .next (s.afterFault .capacityExceeded))

/-- APPBITS in closed form (R93): with `p = WBIT`, the `p` data bits of the last byte and the new bits are laid out
together after the bytes before it, and `WBIT` becomes `(p + c) mod 8`. Two consequences: appending `l` then `r` leaves
the cursor of appending `l ++ r`, and on a cursor with `WBIT = 0` the bytes added are those PACK returns. The premise
that a partly written byte exists and that its pad bits are zero is R21 item 4; the other premise is that `CAP` is not
exceeded. -/
def Obligations.AppbitsClosedForm : Prop :=
  ∀ (s : State) (bits : Bits), s.status.fault = false → s.cursor.Ok s.cfg →
    (∀ cap, s.cfg.cap = some cap → s.cursor.writePos + bits.length ≤ 8 * cap) →
    (∃ u : State, u = { s with
        cursor := { s.cursor with
          contents :=
            if s.cursor.wbit = 0 then ⟨s.cursor.contents.bytes ++ bytesOf bits⟩
            else ⟨s.cursor.contents.bytes.dropLast ++
              bytesOf (((s.cursor.contents.bytes.getLast?.map bitsOfByte).getD []).take s.cursor.wbit.val ++ bits)⟩
          wbit := Fin.ofNat 8 (s.cursor.wbit.val + bits.length) } } ∧
      exec (.appbits bits) s = .next (u.after .ok .none)) ∧
    (∀ l r t u v, bits = l ++ r → exec (.appbits l) s = .next t → exec (.appbits r) t = .next u →
      exec (.appbits bits) s = .next v → u.cursor = v.cursor) ∧
    (∀ t, exec (.pack bits) s = .next t → t.lastResult = .bytes (bytesOf bits))

/-- APPBITS under a finite `CAP`: it adds `ceil((WBIT + c)/8) - ceil(WBIT/8)` bytes; if they fit it completes, with
`LEN` larger by just that, and otherwise the fatal `CapacityExceeded` is raised before any bit is written (R92, R50,
R197). -/
def Obligations.AppbitsCapacity : Prop :=
  ∀ (s : State) (bits : Bits) (cap : Nat), s.status.fault = false → s.cfg.cap = some cap → s.cursor.Ok s.cfg →
    let new := (s.cursor.wbit.val + bits.length + 7) / 8 - (s.cursor.wbit.val + 7) / 8
    (s.cursor.contents.len + new ≤ cap ↔ s.cursor.writePos + bits.length ≤ 8 * cap) ∧
    (s.cursor.contents.len + new ≤ cap →
      ∃ m : Memory, m.len = s.cursor.contents.len + new ∧
        exec (.appbits bits) s = .next
          ({ s with
              cursor := { s.cursor with
                contents := m, wbit := Fin.ofNat 8 (s.cursor.wbit.val + bits.length) } }.after .ok .none)) ∧
    (cap < s.cursor.contents.len + new → exec (.appbits bits) s = .next (s.afterFault .capacityExceeded))

/-- RDBITS reads the next `n` bits, most significant first, and advances the read pointer by `n` bits, at any bit
position (R97, R45); `n = 0` reads nothing and answers 0. `n` above `N_MAX` is `IllegalCommand`. -/
def Obligations.RdbitsReadsNextBits : Prop :=
  ∀ (s : State) (n : BitVec 8), s.status.fault = false →
    (n.toNat ≤ s.cfg.valW → n.toNat ≤ s.cursor.unread.length →
      ∃ c : Cursor, c.contents = s.cursor.contents ∧ c.wbit = s.cursor.wbit ∧
        c.readPos = s.cursor.readPos + n.toNat ∧
        exec (.rdbits n) s = .next ({ s with cursor := c }.after .ok (.value (val (s.cursor.unread.take n.toNat))))) ∧
    (s.cfg.valW < n.toNat → exec (.rdbits n) s = .next (s.afterFault .illegalCommand))

/-- RDBITS of more bits than are left ends in `Exhausted`: the bits left are consumed (no rollback), the read pointer
stands at the end, no value comes back, nothing latches (R97, R192, R48). The premise keeps the read pointer in the
buffer (R21). -/
def Obligations.RdbitsExhaustsWithoutRollback : Prop :=
  ∀ (s : State) (n : BitVec 8), s.status.fault = false → s.cursor.Ok s.cfg → n.toNat ≤ s.cfg.valW →
    s.cursor.unread.length < n.toNat →
    exec (.rdbits n) s = .next
      ({ s with
          cursor := { s.cursor with
            rbyte := max s.cursor.rbyte s.cursor.contents.len, rbit := 0 } }.after .exhausted .none)

/-- A mixed-width access sees the same bits (R43): reading `a` bits and then `b` bits returns the two parts of what one
read of `a + b` bits returns, and leaves the same read pointer. -/
def Obligations.MixedWidthReadsRegroup : Prop :=
  ∀ (s : State) (a b : BitVec 8), s.status.fault = false → a.toNat + b.toNat < 256 →
    a.toNat + b.toNat ≤ s.cfg.valW → a.toNat + b.toNat ≤ s.cursor.unread.length →
    ∃ (c : Cursor) (v₁ v₂ : Nat), v₂ < 2 ^ b.toNat ∧
      execAll [.rdbits a, .rdbits b] s =
        some (({ s with cursor := c }.after .ok (.value v₁)).after .ok (.value v₂)) ∧
      exec (.rdbits (a + b)) s = .next ({ s with cursor := c }.after .ok (.value (2 ^ b.toNat * v₁ + v₂)))

/-- RDBYTES (R94, R95): it aligns forward, and at the aligned position `p` returns the `n` bytes and skips one more;
with exactly `n` bytes left the three values of `RB_TAIL` differ; with fewer, `Exhausted`, and only the alignment is
kept. A result of `2^CNT_W` bytes is the fatal `CapacityExceeded` (R157), before the alignment is written (the model's
reading, log 9). -/
def Obligations.RdbytesReturnsRunAndSkips : Prop :=
  ∀ (s : State) (n p : Nat), s.status.fault = false →
    p = (if s.cursor.rbit = 0 then s.cursor.rbyte else s.cursor.rbyte + 1) →
    let len := s.cursor.contents.bytes.length
    let run := (s.cursor.contents.bytes.drop p).take n
    (p + n < len → n < 2 ^ 32 → exec (.rdbytes n) s = .next
      ({ s with cursor := { s.cursor with rbyte := p + n + 1, rbit := 0 } }.after .ok (.bytes run))) ∧
    (p + n = len → n < 2 ^ 32 → s.cfg.rbTail = .clamp → exec (.rdbytes n) s = .next
      ({ s with cursor := { s.cursor with rbyte := len, rbit := 0 } }.after .ok (.bytes run))) ∧
    (p + n = len → n < 2 ^ 32 → s.cfg.rbTail = .overshoot → exec (.rdbytes n) s = .next
      ({ s with cursor := { s.cursor with rbyte := len + 1, rbit := 0 } }.after .ok (.bytes run))) ∧
    (p + n = len → s.cfg.rbTail = .exhaust → exec (.rdbytes n) s = .next
      ({ s with cursor := { s.cursor with rbyte := p, rbit := 0 } }.after .exhausted .none)) ∧
    (len < p + n → exec (.rdbytes n) s = .next
      ({ s with cursor := { s.cursor with rbyte := p, rbit := 0 } }.after .exhausted .none)) ∧
    ((p + n < len ∨ (p + n = len ∧ s.cfg.rbTail ≠ .exhaust)) → 2 ^ 32 ≤ n →
      exec (.rdbytes n) s = .next (s.afterFault .capacityExceeded))

/-! ### IntegerCodec: encoders and widths -/

/-- ENCF of a value that fits returns exactly `width` bits that spell the value, and changes nothing (R111, R61); a
width above `N_MAX` is `IllegalCommand`. -/
def Obligations.EncfSpellsValue : Prop :=
  ∀ (s : State) (width : BitVec 8) (value : Nat), s.status.fault = false →
    (width.toNat ≤ s.cfg.valW → value < 2 ^ width.toNat →
      ∃ bits : Bits, bits.length = width.toNat ∧ val bits = value ∧
        exec (.encf width value) s = .next (s.after .ok (.bits bits))) ∧
    (s.cfg.valW < width.toNat → exec (.encf width value) s = .next (s.afterFault .illegalCommand))

/-- ENCF of a value that does not fit (R112): with `STRICT = 1` the fatal `EncodingOverflow`; with `STRICT = 0` the low
`width` bits come back with `OverflowWarning` and `OVFW` is set. -/
def Obligations.EncfOverflowFollowsStrict : Prop :=
  ∀ (s : State) (width : BitVec 8) (value : Nat), s.status.fault = false → width.toNat ≤ s.cfg.valW →
    2 ^ width.toNat ≤ value →
    (s.ctrl.strict = true → exec (.encf width value) s = .next (s.afterFault .encodingOverflow)) ∧
    (s.ctrl.strict = false →
      ∃ bits : Bits, bits.length = width.toNat ∧ val bits = value % 2 ^ width.toNat ∧
        exec (.encf width value) s = .next
          ({ s with status := { s.status with ovfw := true } }.after .overflowWarning (.bits bits)))

/-- ENCUE returns the unsigned Exp-Golomb code (R62): for the bit length `L` of `value + 1`, a prefix of `L-1` zeros, a
marker 1 and a suffix of `L-1` bits that spells `value + 1 - 2^(L-1)`, `2L-1` bits in all; a single 1 for 0. No operand
overflows (R113). -/
def Obligations.EncueReturnsExpGolombCode : Prop :=
  ∀ (s : State) (value L : Nat), s.status.fault = false → 1 ≤ L → 2 ^ (L - 1) ≤ value + 1 → value + 1 < 2 ^ L →
    ∃ suffix : Bits, suffix.length = L - 1 ∧ val suffix = value + 1 - 2 ^ (L - 1) ∧
      exec (.encue value) s = .next (s.after .ok (.bits (List.replicate (L - 1) false ++ [true] ++ suffix)))

/-- ENCSE returns the unsigned code of the code number: `2|v|` for `v <= 0`, `2v - 1` for `v > 0` (R65, R66, R114; the
positive branch is the spec's decision D14, log 13). -/
def Obligations.EncseReturnsCodeOfCodeNumber : Prop :=
  ∀ (s : State) (v : Int) (k : Nat), s.status.fault = false →
    ((v ≤ 0 ∧ (k : Int) = -2 * v) ∨ (0 < v ∧ (k : Int) = 2 * v - 1)) →
    ∃ bits : Bits, exec (.encue k) s = .next (s.after .ok (.bits bits)) ∧
      exec (.encse v) s = .next (s.after .ok (.bits bits))

/-- The signed mapping and its inverse (R67): `signedof` is `(k+1) div 2` on odd and `-(k div 2)` on even numbers, and
the two mappings undo each other. The odd branch, and so both inverses, rest on the spec's decision D14, which it took
from general knowledge (log 13, PRESUMED). -/
def Obligations.SignedMappingIsBijective : Prop :=
  (∀ k : Nat, k % 2 = 1 → signedof k = (k + 1) / 2) ∧ (∀ k : Nat, k % 2 = 0 → signedof k = -(k / 2)) ∧
  (∀ v : Int, signedof (codenum v) = v) ∧ (∀ k : Nat, codenum (signedof k) = k)

/-- WIDTHU returns the least width of at least 1 at which `max` can be written (R118). -/
def Obligations.WidthuIsLeastWidth : Prop :=
  ∀ (s : State) (hi : Nat), s.status.fault = false →
    ∃ w : Nat, 1 ≤ w ∧ hi < 2 ^ w ∧ (∀ u, 1 ≤ u → hi < 2 ^ u → w ≤ u) ∧
      exec (.widthu hi) s = .next (s.after .ok (.value w))

/-- WIDTHS returns the least width of at least 1 whose power of two reaches `max - min` (R119); an empty range is
`IllegalCommand`. -/
def Obligations.WidthsIsLeastWidth : Prop :=
  ∀ (s : State) (lo hi : Int), s.status.fault = false →
    (lo ≤ hi →
      ∃ w : Nat, 1 ≤ w ∧ hi - lo ≤ 2 ^ w ∧ (∀ u : Nat, 1 ≤ u → hi - lo ≤ 2 ^ u → w ≤ u) ∧
        exec (.widths lo hi) s = .next (s.after .ok (.value w))) ∧
    (hi < lo → exec (.widths lo hi) s = .next (s.afterFault .illegalCommand))

/-! ### IntegerCodec: decoders -/

/-- DECUE reads one code: where the unread bits begin with `z` zeros, a 1 and `z` suffix bits, it returns `2^z - 1 + s`
if that fits a value word and `DecodeRange` otherwise, and consumes just the `2z + 1` bits either way (R64, R115, R116,
R193). -/
def Obligations.DecueReadsOneCode : Prop :=
  ∀ (s : State) (z k : Nat) (suffix rest : Bits), s.status.fault = false → z ≤ s.cfg.valW → suffix.length = z →
    s.cursor.unread = List.replicate z false ++ [true] ++ suffix ++ rest → k = 2 ^ z - 1 + val suffix →
    ∃ c : Cursor, c.contents = s.cursor.contents ∧ c.wbit = s.cursor.wbit ∧
      c.readPos = s.cursor.readPos + (2 * z + 1) ∧
      (k < 2 ^ s.cfg.valW → exec .decue s = .next ({ s with cursor := c }.after .ok (.value k))) ∧
      (2 ^ s.cfg.valW ≤ k → exec .decue s = .next ({ s with cursor := c }.after .decodeRange .none))

/-- DECSE reads one code as DECUE does and returns the signed value of its code number as a two's complement word;
`k` odd gives `(k+1)/2`, `k` even gives `-(k/2)`; outside the signed `VAL_W`-bit range, `DecodeRange` (R117, R67). The
odd branch is the spec's decision D14, taken from general knowledge (log 13, PRESUMED). -/
def Obligations.DecseReadsOneCode : Prop :=
  ∀ (s : State) (z k : Nat) (v : Int) (suffix rest : Bits), s.status.fault = false → 1 ≤ s.cfg.valW →
    z ≤ s.cfg.valW → suffix.length = z →
    s.cursor.unread = List.replicate z false ++ [true] ++ suffix ++ rest → k = 2 ^ z - 1 + val suffix →
    ((k % 2 = 1 ∧ 2 * v = k + 1) ∨ (k % 2 = 0 ∧ 2 * v = -k)) →
    ∃ c : Cursor, c.contents = s.cursor.contents ∧ c.wbit = s.cursor.wbit ∧
      c.readPos = s.cursor.readPos + (2 * z + 1) ∧
      (∀ w : Nat, w < 2 ^ s.cfg.valW → 0 ≤ v → v < 2 ^ (s.cfg.valW - 1) → (w : Int) = v →
        exec .decse s = .next ({ s with cursor := c }.after .ok (.value w))) ∧
      (∀ w : Nat, w < 2 ^ s.cfg.valW → v < 0 → -(2 ^ (s.cfg.valW - 1)) ≤ v → (w : Int) = v + 2 ^ s.cfg.valW →
        exec .decse s = .next ({ s with cursor := c }.after .ok (.value w))) ∧
      (v < -(2 ^ (s.cfg.valW - 1)) ∨ 2 ^ (s.cfg.valW - 1) ≤ v →
        exec .decse s = .next ({ s with cursor := c }.after .decodeRange .none))

/-- The decoders on a code that the buffer cuts short end in `Exhausted` with everything consumed: an all-zero rest of
at most `LZ_MAX` bits, or a prefix and marker with fewer suffix bits than the prefix counts (R115, R192, R48). -/
def Obligations.DecodersExhaustOnCutCode : Prop :=
  ∀ (i : Instr) (s : State), (i = .decue ∨ i = .decse) → s.status.fault = false → s.cursor.Ok s.cfg →
    ((∃ z, z ≤ s.cfg.valW ∧ s.cursor.unread = List.replicate z false) ∨
     (∃ z suffix, z ≤ s.cfg.valW ∧ suffix.length < z ∧
        s.cursor.unread = List.replicate z false ++ [true] ++ suffix)) →
    exec i s = .next
      ({ s with
          cursor := { s.cursor with
            rbyte := max s.cursor.rbyte s.cursor.contents.len, rbit := 0 } }.after .exhausted .none)

/-- The decoders on more than `LZ_MAX` leading zeros end in `DecodeRange` after `LZ_MAX + 1` bits, which stay consumed
(R115, R193). -/
def Obligations.DecodersStopAfterTooManyZeros : Prop :=
  ∀ (i : Instr) (s : State) (rest : Bits), (i = .decue ∨ i = .decse) → s.status.fault = false →
    s.cursor.unread = List.replicate (s.cfg.valW + 1) false ++ rest →
    ∃ c : Cursor, c.contents = s.cursor.contents ∧ c.wbit = s.cursor.wbit ∧
      c.readPos = s.cursor.readPos + (s.cfg.valW + 1) ∧
      exec i s = .next ({ s with cursor := c }.after .decodeRange .none)

/-- Bit round-trip (R99) and code round-trip (R122), in any mix: on a cursor whose read pointer stands at its write
pointer, after the codes of any fields are appended in any split into APPBITS commands, the reads of the same fields in
the same order return the values, each consuming just its own code. For `se` fields of positive values it rests on the
spec's decision D14, taken from general knowledge (log 13, PRESUMED). -/
def Obligations.MixedStreamRoundTrip : Prop :=
  ∀ (s : State) (fields : List Field) (chunks : List Bits), s.Inv → s.cfg.wf = true → s.status.fault = false →
    s.cursor.readPos = s.cursor.writePos → (∀ f ∈ fields, f.Fits s.cfg) →
    chunks.flatten = (fields.map Field.bits).flatten →
    (∀ cap, s.cfg.cap = some cap → s.cursor.writePos + chunks.flatten.length ≤ 8 * cap) →
    ∃ t : State, execAll (chunks.map Instr.appbits ++ fields.map Field.read) s = some t ∧
      t.responses = s.responses ++ chunks.map (fun _ => ⟨.ok, .none⟩) ++
        fields.map (fun f => ⟨.ok, .value (f.word s.cfg)⟩) ∧
      t.cursor.readPos = s.cursor.readPos + chunks.flatten.length

/-! ### RbspPacker -/

/-- PACK returns `ceil(c/8)` bytes, byte `j` holding bits `8j` to `8j+7` most significant first, zeros after the last
bit, and changes no register; its hidden accumulator ends empty (R130, R131, R60; log 8). -/
def Obligations.PackGroupsBitsIntoBytes : Prop :=
  ∀ (s : State) (bits : Bits), s.status.fault = false →
    exec (.pack bits) s = .next
      ({ s with rp := ⟨0#8, 0⟩ }.after .ok (.bytes ((List.range ((bits.length + 7) / 8)).map fun j =>
        BitVec.ofNat 8 (val (((bits ++ List.replicate (8 * ((bits.length + 7) / 8) - bits.length) false).drop
          (8 * j)).take 8)))))

/-- What PACKT returns (R132, R133): what PACK returns for the data and the stop bit, and that is, in stream order, the
data bits, the stop bit, and zeros to the end of the last byte; `ceil((d+1)/8)` bytes whose last is never `0x00`, is
`0x80` when `d` is a multiple of 8, and ends in the stop bit when `d mod 8 = 7`. It changes no register; its hidden
accumulator ends empty (R131, log 8). -/
def Obligations.PacktEndsInStopBit : Prop :=
  ∀ (s : State) (data : Bits), s.status.fault = false →
    ∃ (t : State) (out : Bytes) (last : Byte),
      (Pseudo.packt data).run s = .next t ∧ exec (.pack (data ++ [true])) s = .next t ∧
      t = { s with rp := ⟨0#8, 0⟩ }.after .ok (.bytes (out ++ [last])) ∧
      bitsOf (out ++ [last]) =
        data ++ [true] ++ List.replicate (8 * ((data.length + 1 + 7) / 8) - (data.length + 1)) false ∧
      out.length + 1 = (data.length + 1 + 7) / 8 ∧ last.toNat % 2 ^ (8 - data.length % 8) = 2 ^ (7 - data.length % 8) ∧
      last ≠ 0x00#8 ∧ (data.length % 8 = 0 → last = 0x80#8) ∧ (data.length % 8 = 7 → last.getLsbD 0 = true)

/-- PACK and the cursor (R134): on a cursor with `WBIT = 0`, APPBITS appends exactly the bytes PACK returns, and
APPBYTES of them leaves the same `contents`; `WBIT` is `c mod 8` after the one and 0 after the other. -/
def Obligations.PackMatchesAppbits : Prop :=
  ∀ (s : State) (bits : Bits), s.status.fault = false → s.cfg.cap = none → s.cursor.wbit = 0 →
    ∃ (out : Bytes) (t u v : State),
      exec (.pack bits) s = .next t ∧ t.lastResult = .bytes out ∧
      exec (.appbits bits) s = .next u ∧ u.cursor.contents.bytes = s.cursor.contents.bytes ++ out ∧
      u.cursor.wbit.val = bits.length % 8 ∧
      exec (.appbytes out) s = .next v ∧ v.cursor.contents = u.cursor.contents ∧ v.cursor.wbit = 0

/-! ### EmulationPreventer -/

/-- EPINS completes on every payload whose escaped form can be sent, and returns what the one-counter form of R141
returns; it changes no register but its hidden flags, of which nothing is said (R140, R141, R143; log 8). A longer result is the fatal
`CapacityExceeded` (R157). -/
def Obligations.EpinsMatchesCounterForm : Prop :=
  ∀ (s : State) (bytes : Bytes), s.status.fault = false →
    ((counterEscape 0 bytes).length < 2 ^ 32 →
      ∃ flags : ZeroFlags, exec (.epins bytes) s = .next
        ({ s with ep := flags }.after .ok (.bytes (counterEscape 0 bytes)))) ∧
    (2 ^ 32 ≤ (counterEscape 0 bytes).length → exec (.epins bytes) s = .next (s.afterFault .capacityExceeded))

/-- The escaped form never contains `00 00 00`, `00 00 01` or `00 00 02` (R71 item 1, R145). -/
def Obligations.EscapedFormHoldsNoStartCode : Prop :=
  ∀ (s t : State) (bytes out : Bytes), exec (.epins bytes) s = .next t → t.lastResult = .bytes out →
    StartCodeFree out

/-- Removing every `03` that directly follows two zero bytes from the escaped form gives back the input (R71 item 3). -/
def Obligations.UnescapeInvertsEscape : Prop :=
  ∀ (s t : State) (bytes out : Bytes), exec (.epins bytes) s = .next t → t.lastResult = .bytes out →
    unescapeFrom 0 out = bytes

/-- The escaped form of `n >= 1` bytes has between `n` and `n + (n-1) div 2` bytes, and `n` zero bytes reach the upper
bound; EPINS completes whenever that bound can be sent (R71 item 4, R140). -/
def Obligations.EscapedLengthBound : Prop :=
  ∀ (s : State) (bytes : Bytes), s.status.fault = false → 1 ≤ bytes.length →
    bytes.length + (bytes.length - 1) / 2 < 2 ^ 32 →
    ∃ (t : State) (out : Bytes), exec (.epins bytes) s = .next t ∧ t.lastResult = .bytes out ∧
      bytes.length ≤ out.length ∧ out.length ≤ bytes.length + (bytes.length - 1) / 2 ∧
      (bytes = List.replicate bytes.length 0x00#8 → out.length = bytes.length + (bytes.length - 1) / 2)

/-- In a run of zero bytes an escape stands in front of the third zero, the fifth, the seventh and so on (R142): the
escaped form of `2m + 2` zeros is `00 00` followed by `m` times `03 00 00`, and of `2m + 3` zeros that and `03 00`. -/
def Obligations.ZeroRunEscapedEveryTwoZeros : Prop :=
  ∀ (s t : State) (m : Nat) (out : Bytes),
    (exec (.epins (List.replicate (2 * m + 2) 0x00#8)) s = .next t → t.lastResult = .bytes out →
      out = [0x00#8, 0x00#8] ++ (List.replicate m [0x03#8, 0x00#8, 0x00#8]).flatten) ∧
    (exec (.epins (List.replicate (2 * m + 3) 0x00#8)) s = .next t → t.lastResult = .bytes out →
      out = [0x00#8, 0x00#8] ++ (List.replicate m [0x03#8, 0x00#8, 0x00#8]).flatten ++ [0x03#8, 0x00#8])

/-- Every pseudo-instruction is its expansion (R86), in every state. DECF is RDBITS; PACKT is PACK of the bits and the
stop bit; RBSP is that PACK, then EPINS of the bytes it returned; PUTUE, PUTSE and PUTF are the encoder, then APPBITS of
the bits it returned, with or without ENCF's warning. When PUTF's ENCF is fatal, the second command is still issued and
answered `Faulted` (R198). While `FAULT = 1` each command of an expansion is answered `Faulted` (R156). -/
def Obligations.PseudoInstructionsExpand : Prop :=
  ∀ s : State,
    (s.status.fault = false →
      (∀ n, (Pseudo.decf n).run s = exec (.rdbits n) s) ∧
      (∀ bits, (Pseudo.packt bits).run s = exec (.pack (bits ++ [true])) s) ∧
      (∀ bits, ∃ (out : Bytes) (t : State), exec (.pack (bits ++ [true])) s = .next t ∧ t.lastResult = .bytes out ∧
        (Pseudo.rbsp bits).run s = exec (.epins out) t) ∧
      (∀ value, ∃ (code : Bits) (t : State), exec (.encue value) s = .next t ∧ t.lastResult = .bits code ∧
        (Pseudo.putue value).run s = exec (.appbits code) t) ∧
      (∀ value, ∃ (code : Bits) (t : State), exec (.encse value) s = .next t ∧ t.lastResult = .bits code ∧
        (Pseudo.putse value).run s = exec (.appbits code) t) ∧
      (∀ (value : Nat) (width : BitVec 8),
        (width.toNat ≤ s.cfg.valW → value < 2 ^ width.toNat ∨ s.ctrl.strict = false →
          ∃ (code : Bits) (t : State), exec (.encf width value) s = .next t ∧ t.lastResult = .bits code ∧
            (Pseudo.putf value width).run s = exec (.appbits code) t) ∧
        (width.toNat ≤ s.cfg.valW → 2 ^ width.toNat ≤ value → s.ctrl.strict = true →
          (Pseudo.putf value width).run s = .next ((s.afterFault .encodingOverflow).after .faulted .none)) ∧
        (s.cfg.valW < width.toNat →
          (Pseudo.putf value width).run s = .next ((s.afterFault .illegalCommand).after .faulted .none)))) ∧
    (s.status.fault = true →
      (∀ n, (Pseudo.decf n).run s = .next (s.after .faulted .none)) ∧
      (∀ bits, (Pseudo.packt bits).run s = .next (s.after .faulted .none)) ∧
      (∀ bits, (Pseudo.rbsp bits).run s = .next ((s.after .faulted .none).after .faulted .none)) ∧
      (∀ value, (Pseudo.putue value).run s = .next ((s.after .faulted .none).after .faulted .none)) ∧
      (∀ value, (Pseudo.putse value).run s = .next ((s.after .faulted .none).after .faulted .none)) ∧
      (∀ value width, (Pseudo.putf value width).run s = .next ((s.after .faulted .none).after .faulted .none)))
end

