-- ==== Sys2Proof/Laws/Bits.lean ====
section
/-!
SUPPORT. Laws of the value forms and of the byte layout: `val` and `bin` undo each other, `bytesOf` and `bitsOf` undo
each other up to the padding (R60), and the big-endian words.
-/
namespace Sys2Proof.Machine

/-! ### `val` and `bin` -/

@[simp] theorem zeros_length (n : Nat) : (zeros n).length = n := by simp [zeros]

@[simp] theorem bin_length (x w : Nat) : (bin x w).length = w := by simp [bin]

@[simp] theorem val_nil : val [] = 0 := rfl

theorem val_foldl (bits : Bits) (v : Nat) :
    bits.foldl (fun v b => 2 * v + b.toNat) v = v * 2 ^ bits.length + val bits := by
  induction bits generalizing v with
  | nil => simp [val]
  | cons b bits ih =>
    simp only [List.foldl_cons, List.length_cons, val]
    rw [ih, ih (2 * 0 + b.toNat)]
    ring

theorem val_cons (b : Bool) (bits : Bits) : val (b :: bits) = b.toNat * 2 ^ bits.length + val bits := by
  have := val_foldl bits (2 * 0 + b.toNat)
  simpa [val] using this

theorem val_append (l r : Bits) : val (l ++ r) = val l * 2 ^ r.length + val r := by
  rw [val, List.foldl_append, val_foldl]; rfl

theorem val_lt (bits : Bits) : val bits < 2 ^ bits.length := by
  induction bits with
  | nil => simp
  | cons b bits ih =>
    rw [val_cons, List.length_cons, pow_succ]
    have : b.toNat ≤ 1 := Bool.toNat_le b
    nlinarith

@[simp] theorem val_zeros (n : Nat) : val (zeros n) = 0 := by
  induction n with
  | zero => rfl
  | succ n ih => rw [zeros, List.replicate_succ, val_cons]; simpa [zeros] using ih

theorem val_inj {l r : Bits} (hl : l.length = r.length) (h : val l = val r) : l = r := by
  induction l generalizing r with
  | nil => simpa using (List.length_eq_zero_iff.mp hl.symm).symm
  | cons b l ih =>
    cases r with
    | nil => simp at hl
    | cons c r =>
      have hl' : l.length = r.length := by simpa using hl
      rw [val_cons, val_cons, hl'] at h
      have h1 := val_lt l
      have h2 := val_lt r
      rw [hl'] at h1
      have hbc : b = c := by
        cases b <;> cases c <;> simp_all; all_goals omega
      subst hbc
      rw [ih hl' (by omega)]

theorem bin_succ (x w : Nat) : bin x (w + 1) = x.testBit w :: bin x w := by
  simp only [bin, List.range_succ_eq_map, List.map_cons, List.map_map]
  refine congrArg₂ List.cons (by simp) (List.map_congr_left fun k _ => ?_)
  simp only [Function.comp_def]
  congr 1
  omega

theorem val_bin (x w : Nat) : val (bin x w) = x % 2 ^ w := by
  induction w with
  | zero => simp [bin, Nat.mod_one]
  | succ w ih =>
    rw [bin_succ, val_cons, ih, bin_length, Nat.toNat_testBit, pow_succ, Nat.mod_mul, Nat.add_comm, Nat.mul_comm]

theorem val_bin_of_lt {x w : Nat} (h : x < 2 ^ w) : val (bin x w) = x := by
  rw [val_bin, Nat.mod_eq_of_lt h]

theorem bin_val (bits : Bits) : bin (val bits) bits.length = bits :=
  val_inj (by simp) (val_bin_of_lt (val_lt bits))

/-! ### Bytes as bits -/

@[simp] theorem bitsOfByte_length (b : Byte) : (bitsOfByte b).length = 8 := by simp [bitsOfByte]

theorem bitsOfByte_eq_bin (b : Byte) : bitsOfByte b = bin b.toNat 8 := by
  unfold bitsOfByte bin
  apply List.map_congr_left
  intro k hk
  have hk' : k < 8 := by simpa using hk
  rw [BitVec.getMsbD, BitVec.getLsbD]
  simp [hk']

@[simp] theorem val_bitsOfByte (b : Byte) : val (bitsOfByte b) = b.toNat := by
  rw [bitsOfByte_eq_bin, val_bin_of_lt b.isLt]

@[simp] theorem bitsOf_nil : bitsOf [] = [] := rfl

@[simp] theorem bitsOf_cons (b : Byte) (bytes : Bytes) : bitsOf (b :: bytes) = bitsOfByte b ++ bitsOf bytes := rfl

@[simp] theorem bitsOf_append (l r : Bytes) : bitsOf (l ++ r) = bitsOf l ++ bitsOf r := by simp [bitsOf]

@[simp] theorem bitsOf_length (bytes : Bytes) : (bitsOf bytes).length = 8 * bytes.length := by
  induction bytes with
  | nil => rfl
  | cons b bytes ih => simp [ih]; ring

theorem bitsOf_inj {l r : Bytes} (h : bitsOf l = bitsOf r) : l = r := by
  induction l generalizing r with
  | nil =>
    have := congrArg List.length h
    simp at this
    exact this.symm
  | cons b l ih =>
    cases r with
    | nil => have := congrArg List.length h; simp at this
    | cons c r =>
      simp only [bitsOf_cons] at h
      obtain ⟨h1, h2⟩ := List.append_inj h (by simp)
      have : b.toNat = c.toNat := by rw [← val_bitsOfByte, h1, val_bitsOfByte]
      rw [BitVec.eq_of_toNat_eq this, ih h2]

theorem bitsOfByte_byteOfBits (bits : Bits) : bitsOfByte (byteOfBits bits) = (bits ++ zeros 8).take 8 := by
  apply val_inj
  · simp
  · have := val_lt ((bits ++ zeros 8).take 8)
    simp only [List.length_take, List.length_append, zeros_length] at this
    rw [val_bitsOfByte, byteOfBits, BitVec.toNat_ofNat, Nat.mod_eq_of_lt]
    simpa using this

theorem bytesOf_eight (l rest : Bits) (h : l.length = 8) : bytesOf (l ++ rest) = byteOfBits l :: bytesOf rest := by
  match l, h with
  | [b0, b1, b2, b3, b4, b5, b6, b7], _ => simp [bytesOf]

theorem bytesOf_short (l : Bits) (h0 : l ≠ []) (h : l.length < 8) : bytesOf l = [byteOfBits l] := by
  match l, h0, h with
  | [_], _, _ | [_, _], _, _ | [_, _, _], _, _ | [_, _, _, _], _, _ | [_, _, _, _, _], _, _
  | [_, _, _, _, _, _], _, _ | [_, _, _, _, _, _, _], _, _ => simp [bytesOf]
  | _ :: _ :: _ :: _ :: _ :: _ :: _ :: _ :: _, _, h => simp at h; omega

theorem bytesOf_one (l : Bits) (h0 : l ≠ []) (h : l.length ≤ 8) : bytesOf l = [byteOfBits l] := by
  by_cases h8 : l.length = 8
  · have := bytesOf_eight l [] h8
    simpa [bytesOf] using this
  · exact bytesOf_short l h0 (by omega)

/-- Induction on a bit sequence eight bits at a time. -/
theorem bits_induction {P : Bits → Prop} (nil : P []) (short : ∀ l, l ≠ [] → l.length < 8 → P l)
    (eight : ∀ l rest, l.length = 8 → P rest → P (l ++ rest)) (l : Bits) : P l := by
  induction hn : l.length using Nat.strong_induction_on generalizing l with
  | _ n ih =>
    by_cases h0 : l = []
    · subst h0; exact nil
    · by_cases h8 : l.length < 8
      · exact short l h0 h8
      · rw [← List.take_append_drop 8 l]
        have hpos : 0 < l.length := List.length_pos_iff.mpr h0
        refine eight _ _ (by simp; omega) (ih (l.drop 8).length (by simp; omega) _ rfl)

@[simp] theorem bytesOf_nil : bytesOf [] = [] := rfl

@[simp] theorem bytesOf_length (bits : Bits) : (bytesOf bits).length = (bits.length + 7) / 8 := by
  induction bits using bits_induction with
  | nil => rfl
  | short l h0 h =>
    have hpos : 0 < l.length := List.length_pos_iff.mpr h0
    rw [bytesOf_short l h0 h]; simp; omega
  | eight l rest h ih => rw [bytesOf_eight l rest h]; simp [ih, h]; omega

/-- The layout of R60: the bits, then zeros to the end of the last byte. -/
theorem bitsOf_bytesOf (bits : Bits) :
    bitsOf (bytesOf bits) = bits ++ zeros (8 * ((bits.length + 7) / 8) - bits.length) := by
  induction bits using bits_induction with
  | nil => rfl
  | short l h0 h =>
    have hpos : 0 < l.length := List.length_pos_iff.mpr h0
    rw [bytesOf_short l h0 h, bitsOf_cons, bitsOf_nil, List.append_nil, bitsOfByte_byteOfBits, List.take_append,
      List.take_of_length_le (by omega), zeros, List.take_replicate, zeros]
    congr 2
    omega
  | eight l rest h ih =>
    rw [bytesOf_eight l rest h, bitsOf_cons, ih, bitsOfByte_byteOfBits, List.take_append_of_le_length (by omega),
      List.take_of_length_le (by omega), List.append_assoc, List.length_append, h]
    congr 3
    omega

theorem bytesOf_append {l : Bits} (h : l.length % 8 = 0) (r : Bits) : bytesOf (l ++ r) = bytesOf l ++ bytesOf r := by
  induction l using bits_induction with
  | nil => rfl
  | short l h0 h' =>
    have hpos : 0 < l.length := List.length_pos_iff.mpr h0
    omega
  | eight l rest h8 ih =>
    rw [List.append_assoc, bytesOf_eight l _ h8, bytesOf_eight l _ h8, ih (by simp [h8] at h; omega)]; rfl

theorem bytesOf_bitsOfByte (b : Byte) : bytesOf (bitsOfByte b) = [b] := by
  apply bitsOf_inj; rw [bitsOf_bytesOf]; simp [zeros]

@[simp] theorem bytesOf_bitsOf (bytes : Bytes) : bytesOf (bitsOf bytes) = bytes := by
  apply bitsOf_inj
  rw [bitsOf_bytesOf, bitsOf_length]
  have : 8 * ((8 * bytes.length + 7) / 8) - 8 * bytes.length = 0 := by omega
  rw [this]; simp [zeros]

/-- A bit sequence is laid out as bytes that carry it with zeros behind it, and only as those. -/
theorem bytesOf_eq_iff (bits : Bits) (bytes : Bytes) (h : bytes.length = (bits.length + 7) / 8) :
    bytesOf bits = bytes ↔
      (bitsOf bytes).take bits.length = bits ∧ ∀ b ∈ (bitsOf bytes).drop bits.length, b = false := by
  constructor
  · rintro rfl
    rw [bitsOf_bytesOf]
    simp [zeros]
  · rintro ⟨h1, h2⟩
    apply bitsOf_inj
    rw [bitsOf_bytesOf]
    conv_rhs => rw [← List.take_append_drop bits.length (bitsOf bytes), h1]
    congr 1
    symm
    rw [zeros, List.eq_replicate_iff]
    refine ⟨by simp [h], h2⟩

/-! ### Big-endian words -/

@[simp] theorem beBytes_length (n v : Nat) : (beBytes n v).length = n := by simp [beBytes]

theorem beVal_foldl (bytes : Bytes) (v : Nat) :
    bytes.foldl (fun v b => 256 * v + b.toNat) v = v * 256 ^ bytes.length + beVal bytes := by
  induction bytes generalizing v with
  | nil => simp [beVal]
  | cons b bytes ih =>
    simp only [List.foldl_cons, List.length_cons, beVal]
    rw [ih, ih (256 * 0 + b.toNat)]
    ring

theorem beVal_cons (b : Byte) (bytes : Bytes) : beVal (b :: bytes) = b.toNat * 256 ^ bytes.length + beVal bytes := by
  have := beVal_foldl bytes (256 * 0 + b.toNat)
  simpa [beVal] using this

theorem beVal_lt (bytes : Bytes) : beVal bytes < 256 ^ bytes.length := by
  induction bytes with
  | nil => simp [beVal]
  | cons b bytes ih =>
    rw [beVal_cons, List.length_cons, pow_succ]
    have : b.toNat ≤ 255 := by have := b.isLt; omega
    nlinarith

theorem beBytes_succ (n v : Nat) : beBytes (n + 1) v = BitVec.ofNat 8 (v >>> (8 * n)) :: beBytes n v := by
  simp only [beBytes, List.range_succ_eq_map, List.map_cons, List.map_map]
  refine congrArg₂ List.cons (by simp) (List.map_congr_left fun k hk => ?_)
  simp only [Function.comp_def, Nat.add_sub_cancel]
  congr 3
  simp at hk
  omega

theorem beVal_beBytes (n v : Nat) : beVal (beBytes n v) = v % 256 ^ n := by
  induction n with
  | zero => simp [beBytes, beVal, Nat.mod_one]
  | succ n ih =>
    rw [beBytes_succ, beVal_cons, ih, beBytes_length, BitVec.toNat_ofNat, Nat.shiftRight_eq_div_pow, pow_mul]
    norm_num
    rw [pow_succ, Nat.mod_mul, Nat.add_comm, Nat.mul_comm]

theorem beVal_inj {l r : Bytes} (hl : l.length = r.length) (h : beVal l = beVal r) : l = r := by
  induction l generalizing r with
  | nil => simpa using (List.length_eq_zero_iff.mp hl.symm).symm
  | cons b l ih =>
    cases r with
    | nil => simp at hl
    | cons c r =>
      have hl' : l.length = r.length := by simpa using hl
      rw [beVal_cons, beVal_cons, hl'] at h
      have h1 := beVal_lt l
      have h2 := beVal_lt r
      rw [hl'] at h1
      have hbc : b.toNat = c.toNat := by
        rcases Nat.lt_trichotomy b.toNat c.toNat with hlt | heq | hgt
        · nlinarith
        · exact heq
        · nlinarith
      rw [BitVec.eq_of_toNat_eq hbc, ih hl' (by rw [hbc] at h; omega)]

theorem beBytes_beVal (bytes : Bytes) : beBytes bytes.length (beVal bytes) = bytes :=
  beVal_inj (by simp) (by rw [beVal_beBytes, Nat.mod_eq_of_lt (beVal_lt bytes)])

end Sys2Proof.Machine
end

