-- ==== Sys2Proof/Laws/State.lean ====
section
/-!
SUPPORT. What each update of the state does to each field, so that no later proof unfolds a record update.
-/
namespace Sys2Proof.Machine

/-! ### `answer` -/

@[simp] theorem answer_cfg (s : State) (code : StatusCode) (r : Result) : (answer s code r).cfg = s.cfg := rfl

@[simp] theorem answer_cursor (s : State) (code : StatusCode) (r : Result) : (answer s code r).cursor = s.cursor := rfl

@[simp] theorem answer_ctrl (s : State) (code : StatusCode) (r : Result) : (answer s code r).ctrl = s.ctrl := rfl

@[simp] theorem answer_status (s : State) (code : StatusCode) (r : Result) : (answer s code r).status = s.status.withLast code := rfl

@[simp] theorem answer_ep (s : State) (code : StatusCode) (r : Result) : (answer s code r).ep = s.ep := rfl

@[simp] theorem answer_rp (s : State) (code : StatusCode) (r : Result) : (answer s code r).rp = s.rp := rfl

@[simp] theorem answer_input (s : State) (code : StatusCode) (r : Result) : (answer s code r).input = s.input := rfl

@[simp] theorem answer_resetRequest (s : State) (code : StatusCode) (r : Result) : (answer s code r).resetRequest = s.resetRequest := rfl

@[simp] theorem answer_responses (s : State) (code : StatusCode) (r : Result) : (answer s code r).responses = s.responses ++ [⟨code, r⟩] := rfl

@[simp] theorem answer_pc (s : State) (code : StatusCode) (r : Result) : (answer s code r).pc = s.pc + 1 := rfl

/-! ### `newSession` -/

@[simp] theorem newSession_cfg (s : State) (bytes : Bytes) : (newSession s bytes).cfg = s.cfg := rfl

@[simp] theorem newSession_cursor (s : State) (bytes : Bytes) : (newSession s bytes).cursor = ⟨⟨bytes⟩, 0, 0, 0⟩ := rfl

@[simp] theorem newSession_ctrl (s : State) (bytes : Bytes) : (newSession s bytes).ctrl = s.ctrl := rfl

@[simp] theorem newSession_status (s : State) (bytes : Bytes) : (newSession s bytes).status = s.status.newSession := rfl

@[simp] theorem newSession_ep (s : State) (bytes : Bytes) : (newSession s bytes).ep = s.ep := rfl

@[simp] theorem newSession_rp (s : State) (bytes : Bytes) : (newSession s bytes).rp = s.rp := rfl

@[simp] theorem newSession_input (s : State) (bytes : Bytes) : (newSession s bytes).input = s.input := rfl

@[simp] theorem newSession_resetRequest (s : State) (bytes : Bytes) : (newSession s bytes).resetRequest = s.resetRequest := rfl

@[simp] theorem newSession_responses (s : State) (bytes : Bytes) : (newSession s bytes).responses = s.responses := rfl

@[simp] theorem newSession_pc (s : State) (bytes : Bytes) : (newSession s bytes).pc = s.pc := rfl

/-! ### `clearHidden` -/

@[simp] theorem clearHidden_cfg (s : State) : (clearHidden s).cfg = s.cfg := rfl

@[simp] theorem clearHidden_cursor (s : State) : (clearHidden s).cursor = s.cursor := rfl

@[simp] theorem clearHidden_ctrl (s : State) : (clearHidden s).ctrl = s.ctrl := rfl

@[simp] theorem clearHidden_status (s : State) : (clearHidden s).status = s.status := rfl

@[simp] theorem clearHidden_ep (s : State) : (clearHidden s).ep = ⟨false, false⟩ := rfl

@[simp] theorem clearHidden_rp (s : State) : (clearHidden s).rp = ⟨0#8, 0⟩ := rfl

@[simp] theorem clearHidden_input (s : State) : (clearHidden s).input = s.input := rfl

@[simp] theorem clearHidden_resetRequest (s : State) : (clearHidden s).resetRequest = s.resetRequest := rfl

@[simp] theorem clearHidden_responses (s : State) : (clearHidden s).responses = s.responses := rfl

@[simp] theorem clearHidden_pc (s : State) : (clearHidden s).pc = s.pc := rfl

/-! ### `resetBlock` -/

@[simp] theorem resetBlock_cfg (s : State) : (resetBlock s).cfg = s.cfg := rfl

@[simp] theorem resetBlock_cursor (s : State) : (resetBlock s).cursor = Cursor.empty := rfl

@[simp] theorem resetBlock_ctrl (s : State) : (resetBlock s).ctrl = ⟨s.cfg.strictReset⟩ := rfl

@[simp] theorem resetBlock_status (s : State) : (resetBlock s).status = ⟨false, false, .ok, .ok⟩ := rfl

@[simp] theorem resetBlock_ep (s : State) : (resetBlock s).ep = ⟨false, false⟩ := rfl

@[simp] theorem resetBlock_rp (s : State) : (resetBlock s).rp = ⟨0#8, 0⟩ := rfl

@[simp] theorem resetBlock_input (s : State) : (resetBlock s).input = s.input := rfl

@[simp] theorem resetBlock_resetRequest (s : State) : (resetBlock s).resetRequest = false := rfl

@[simp] theorem resetBlock_responses (s : State) : (resetBlock s).responses = s.responses := rfl

@[simp] theorem resetBlock_pc (s : State) : (resetBlock s).pc = s.pc := rfl

/-! ### `State.withFetchWord` -/

@[simp] theorem withFetchWord_cfg (s : State) (nbits w : Nat) : (s.withFetchWord nbits w).cfg = s.cfg := rfl

@[simp] theorem withFetchWord_cursor (s : State) (nbits w : Nat) : (s.withFetchWord nbits w).cursor = s.cursor := rfl

@[simp] theorem withFetchWord_ctrl (s : State) (nbits w : Nat) : (s.withFetchWord nbits w).ctrl = s.ctrl := rfl

@[simp] theorem withFetchWord_status (s : State) (nbits w : Nat) : (s.withFetchWord nbits w).status = s.status := rfl

@[simp] theorem withFetchWord_ep (s : State) (nbits w : Nat) : (s.withFetchWord nbits w).ep = s.ep := rfl

@[simp] theorem withFetchWord_rp (s : State) (nbits w : Nat) : (s.withFetchWord nbits w).rp = s.rp := rfl

@[simp] theorem withFetchWord_input (s : State) (nbits w : Nat) : (s.withFetchWord nbits w).input = Sys2Proof.tableBytes s.cfg nbits w := rfl

@[simp] theorem withFetchWord_resetRequest (s : State) (nbits w : Nat) : (s.withFetchWord nbits w).resetRequest = false := rfl

@[simp] theorem withFetchWord_responses (s : State) (nbits w : Nat) : (s.withFetchWord nbits w).responses = s.responses := rfl

@[simp] theorem withFetchWord_pc (s : State) (nbits w : Nat) : (s.withFetchWord nbits w).pc = s.pc := rfl

/-! ### `State.after` -/

@[simp] theorem after_cfg (s : State) (code : StatusCode) (r : Result) : (s.after code r).cfg = s.cfg := rfl

@[simp] theorem after_cursor (s : State) (code : StatusCode) (r : Result) : (s.after code r).cursor = s.cursor := rfl

@[simp] theorem after_ctrl (s : State) (code : StatusCode) (r : Result) : (s.after code r).ctrl = s.ctrl := rfl

@[simp] theorem after_status (s : State) (code : StatusCode) (r : Result) : (s.after code r).status = { s.status with last := code } := rfl

@[simp] theorem after_ep (s : State) (code : StatusCode) (r : Result) : (s.after code r).ep = s.ep := rfl

@[simp] theorem after_rp (s : State) (code : StatusCode) (r : Result) : (s.after code r).rp = s.rp := rfl

@[simp] theorem after_input (s : State) (code : StatusCode) (r : Result) : (s.after code r).input = s.input := rfl

@[simp] theorem after_resetRequest (s : State) (code : StatusCode) (r : Result) : (s.after code r).resetRequest = s.resetRequest := rfl

@[simp] theorem after_responses (s : State) (code : StatusCode) (r : Result) : (s.after code r).responses = s.responses ++ [⟨code, r⟩] := rfl

@[simp] theorem after_pc (s : State) (code : StatusCode) (r : Result) : (s.after code r).pc = s.pc + 1 := rfl

/-! ### `State.afterFault` -/

@[simp] theorem afterFault_cfg (s : State) (f : FatalFault) : (s.afterFault f).cfg = s.cfg := rfl

@[simp] theorem afterFault_cursor (s : State) (f : FatalFault) : (s.afterFault f).cursor = s.cursor := rfl

@[simp] theorem afterFault_ctrl (s : State) (f : FatalFault) : (s.afterFault f).ctrl = s.ctrl := rfl

@[simp] theorem afterFault_status (s : State) (f : FatalFault) : (s.afterFault f).status = { s.status with fault := true, cause := f.status, last := f.status } := rfl

@[simp] theorem afterFault_ep (s : State) (f : FatalFault) : (s.afterFault f).ep = s.ep := rfl

@[simp] theorem afterFault_rp (s : State) (f : FatalFault) : (s.afterFault f).rp = s.rp := rfl

@[simp] theorem afterFault_input (s : State) (f : FatalFault) : (s.afterFault f).input = s.input := rfl

@[simp] theorem afterFault_resetRequest (s : State) (f : FatalFault) : (s.afterFault f).resetRequest = s.resetRequest := rfl

@[simp] theorem afterFault_responses (s : State) (f : FatalFault) : (s.afterFault f).responses = s.responses ++ [⟨f.status, .none⟩] := rfl

@[simp] theorem afterFault_pc (s : State) (f : FatalFault) : (s.afterFault f).pc = s.pc + 1 := rfl

/-! ### The fields of `STATUS` -/

@[simp] theorem Status_withLast_fault (s : Status) (code : StatusCode) : (s.withLast code).fault = s.fault := rfl

@[simp] theorem Status_withLast_ovfw (s : Status) (code : StatusCode) : (s.withLast code).ovfw = s.ovfw := rfl

@[simp] theorem Status_withLast_cause (s : Status) (code : StatusCode) : (s.withLast code).cause = s.cause := rfl

@[simp] theorem Status_withLast_last (s : Status) (code : StatusCode) : (s.withLast code).last = code := rfl

@[simp] theorem Status_withOverflow_fault (s : Status) : (s.withOverflow).fault = s.fault := rfl

@[simp] theorem Status_withOverflow_ovfw (s : Status) : (s.withOverflow).ovfw = true := rfl

@[simp] theorem Status_withOverflow_cause (s : Status) : (s.withOverflow).cause = s.cause := rfl

@[simp] theorem Status_withOverflow_last (s : Status) : (s.withOverflow).last = s.last := rfl

@[simp] theorem Status_withFault_fault (s : Status) (f : FatalFault) : (s.withFault f).fault = true := rfl

@[simp] theorem Status_withFault_ovfw (s : Status) (f : FatalFault) : (s.withFault f).ovfw = s.ovfw := rfl

@[simp] theorem Status_withFault_cause (s : Status) (f : FatalFault) : (s.withFault f).cause = f.status := rfl

@[simp] theorem Status_withFault_last (s : Status) (f : FatalFault) : (s.withFault f).last = s.last := rfl

@[simp] theorem Status_newSession_fault (s : Status) : (s.newSession).fault = false := rfl

@[simp] theorem Status_newSession_ovfw (s : Status) : (s.newSession).ovfw = false := rfl

@[simp] theorem Status_newSession_cause (s : Status) : (s.newSession).cause = .ok := rfl

@[simp] theorem Status_newSession_last (s : Status) : (s.newSession).last = s.last := rfl

/-! ### The latest response -/

@[simp] theorem answer_lastResult (s : State) (code : StatusCode) (r : Result) : (answer s code r).lastResult = r := by
  simp [State.lastResult]

@[simp] theorem after_lastResult (s : State) (code : StatusCode) (r : Result) : (s.after code r).lastResult = r := by
  simp [State.lastResult]

end Sys2Proof.Machine
end

