-- ==== Sys2Proof/Laws/Ops.lean ====
section
/-!
SUPPORT. What the shared operations do: the envelope (R155), fault entry (R201), and the memory.
-/
namespace Sys2Proof.Machine

/-! ### The envelope -/

theorem answer_eq_after (s : State) (code : StatusCode) (r : Result) : answer s code r = s.after code r := rfl

theorem takeFault_eq_afterFatal (f : FatalFault) (s : State) : takeFault f s = s.afterFatal f := rfl

theorem afterFatal_of_fault {s : State} (f : FatalFault) (h : s.status.fault = true) :
    s.afterFatal f = s.after .faulted .none := by simp [State.afterFatal, h]

theorem afterFatal_of_no_fault {s : State} (f : FatalFault) (h : s.status.fault = false) :
    s.afterFatal f = s.afterFault f := by simp [State.afterFatal, h]

/-- A command that is served ends as its operation ends (R155 steps 2 to 5). -/
theorem execute_served {op : Op} {s : State} (h : s.status.fault = false ∨ servedInFault op = true) (e : OpEnd) :
    execute op s e = finish s e := by
  rcases h with h | h <;> simp [execute, h]

/-- A command that is not served is answered `Faulted` (R155 step 1, R156). -/
theorem execute_refused {op : Op} {s : State} (h : s.status.fault = true) (ho : servedInFault op = false) (e : OpEnd) :
    execute op s e = .next (s.after .faulted .none) := by
  simp [execute, h, ho, answer_eq_after]

@[simp] theorem finish_ok (s t : State) (r : Result) : finish s (.ok t r) = .next (t.after .ok r) := rfl

@[simp] theorem finish_warning (s t : State) (r : Result) :
    finish s (.warning t r) = .next (t.after .overflowWarning r) := rfl

@[simp] theorem finish_signal (s t : State) (g : Signal) : finish s (.signal t g) = .next (t.after g.status .none) := rfl

@[simp] theorem finish_fatal (s : State) (f : FatalFault) : finish s (.fatal f) = .next (s.afterFatal f) := rfl

@[simp] theorem finish_unclaimed (s : State) (r : Refusal) : finish s (.unclaimed r) = .refused r := rfl

/-- Everything a command can do: it is refused by the fault state, it is answered in the state its operation left, or
it takes a fatal fault. -/
theorem execute_cases {op : Op} {s t : State} {e : OpEnd} (h : execute op s e = .next t) :
    (s.status.fault = true ∧ servedInFault op = false ∧ t = s.after .faulted .none) ∨
    ((s.status.fault = false ∨ servedInFault op = true) ∧
      ((∃ u r, e = .ok u r ∧ t = u.after .ok r) ∨
       (∃ u r, e = .warning u r ∧ t = u.after .overflowWarning r) ∨
       (∃ u g, e = .signal u g ∧ t = u.after g.status .none) ∨
       (∃ f, e = .fatal f ∧ t = s.afterFatal f))) := by
  by_cases hs : s.status.fault = false ∨ servedInFault op = true
  · rw [execute_served hs] at h
    refine .inr ⟨hs, ?_⟩
    cases e <;> simp at h <;> simp [h]
  · simp at hs
    rw [execute_refused hs.1 hs.2] at h
    simp at h
    exact .inl ⟨hs.1, hs.2, h.symm⟩

/-! ### The memory -/

@[simp] theorem Memory_len_mk (b : Bytes) : (Memory.mk b).len = b.length := rfl

@[simp] theorem Memory_append_bytes (m : Memory) (v : Bytes) : (m.append v).bytes = m.bytes ++ v := rfl

@[simp] theorem Memory_append_len (m : Memory) (v : Bytes) : (m.append v).len = m.len + v.length := by
  simp [Memory.len]

@[simp] theorem Memory_mergeLast_len (m : Memory) (v : Byte) : (m.mergeLast v).len = m.len := by
  simp [Memory.len, Memory.mergeLast]

theorem Memory_mergeLast_byte (m : Memory) (v : Byte) {a : Nat} (h : a + 1 < m.len) :
    (m.mergeLast v).byte? a = m.byte? a := by
  simp only [Memory.len] at h
  rw [Memory.mergeLast, Memory.byte?, Memory.byte?, List.getElem?_modify]
  have hne : m.bytes.length - 1 ≠ a := by omega
  simp [hne]

theorem Memory_append_byte (m : Memory) (v : Bytes) {a : Nat} (h : a < m.len) : (m.append v).byte? a = m.byte? a := by
  simp only [Memory.len] at h
  simp [Memory.byte?, List.getElem?_append_left h]

/-- An address exists exactly below `LEN` (R40). -/
theorem Memory_byte_none_iff (m : Memory) (a : Nat) : m.byte? a = none ↔ m.len ≤ a := by
  simp [Memory.byte?, Memory.len]

/-- Every memory has its canonical form, so every operation keeps it. -/
theorem Memory_wf (m : Memory) : m.wf = true := by
  simp only [Memory.wf, Memory.cells, List.map_map, Function.comp_def, Memory.len, decide_eq_true_eq]
  simp [List.range_eq_range']

theorem Memory_append_wf (m : Memory) (v : Bytes) : (m.append v).wf = true := Memory_wf _

theorem Memory_mergeLast_wf (m : Memory) (v : Byte) : (m.mergeLast v).wf = true := Memory_wf _

theorem reset_memory_wf : State.reset.cursor.contents.wf = true := Memory_wf _

/-- `LEN` after a command of the spec's `CAP` test (R50). -/
theorem exceedsCap_eq_false_iff (c : Config) (n : Nat) :
    Config.exceedsCap c n = false ↔ ∀ cap, c.cap = some cap → n ≤ cap := by
  unfold Config.exceedsCap; cases c.cap <;> simp

theorem exceedsCap_eq_true_iff (c : Config) (n : Nat) :
    Config.exceedsCap c n = true ↔ ∃ cap, c.cap = some cap ∧ cap < n := by
  unfold Config.exceedsCap; cases c.cap <;> simp

theorem resultTooLong_eq_true_iff (n : Nat) : resultTooLong n = true ↔ 2 ^ 32 ≤ n := by
  rw [resultTooLong, decide_eq_true_iff, cntW]

theorem resultTooLong_eq_false_iff (n : Nat) : resultTooLong n = false ↔ n < 2 ^ 32 := by
  rw [resultTooLong, decide_eq_false_iff_not, cntW, Nat.not_le]

/-- `MemRead(0, LEN)` is all of `contents` (R152). -/
@[simp] theorem Memory_read_all (m : Memory) : m.read 0 m.len = m.bytes := by simp [Memory.read, Memory.len]

/-! ### A fatal fault -/

/-- What a fatal fault leaves alone, and its response (R201). -/
theorem afterFatal_frame (s : State) (f : FatalFault) :
    (s.afterFatal f).pc = s.pc + 1 ∧ (s.afterFatal f).cfg = s.cfg ∧ (s.afterFatal f).resetRequest = s.resetRequest ∧
    (s.afterFatal f).cursor = s.cursor ∧ (s.afterFatal f).ctrl = s.ctrl ∧ (s.afterFatal f).input = s.input ∧
    ∃ code, (s.afterFatal f).responses = s.responses ++ [⟨code, .none⟩] ∧ (s.afterFatal f).status.last = code := by
  unfold State.afterFatal
  split <;> exact ⟨rfl, rfl, rfl, rfl, rfl, rfl, _, rfl, rfl⟩

theorem afterFatal_fault (s : State) (f : FatalFault) : (s.afterFatal f).status.fault = true := by
  unfold State.afterFatal
  split
  · simpa [State.after] using ‹_›
  · rfl

end Sys2Proof.Machine
end

