-- ==== Sys2Proof/Laws/Cursor.lean ====
section
/-!
SUPPORT. The cursor as a bit stream: what `ReadBit()`, the bit reads and the bit appends do, in terms of the unread bits
and of the bits written.
-/
namespace Sys2Proof.Machine

/-! ### The read pointer -/

/-- The cursor with its read pointer at a bit position. -/
def Cursor.atPos (c : Cursor) (p : Nat) : Cursor := { c with rbyte := p / 8, rbit := Fin.ofNat 8 p }

@[simp] theorem atPos_contents (c : Cursor) (p : Nat) : (c.atPos p).contents = c.contents := rfl

@[simp] theorem atPos_wbit (c : Cursor) (p : Nat) : (c.atPos p).wbit = c.wbit := rfl

@[simp] theorem atPos_rbyte (c : Cursor) (p : Nat) : (c.atPos p).rbyte = p / 8 := rfl

@[simp] theorem atPos_rbit (c : Cursor) (p : Nat) : (c.atPos p).rbit.val = p % 8 := rfl

@[simp] theorem atPos_readPos (c : Cursor) (p : Nat) : (c.atPos p).readPos = p := by
  simp only [Cursor.readPos, atPos_rbyte, atPos_rbit]; omega

@[simp] theorem atPos_atPos (c : Cursor) (p q : Nat) : (c.atPos p).atPos q = c.atPos q := rfl

theorem atPos_self (c : Cursor) : c.atPos c.readPos = c := by
  obtain ⟨m, rb, ⟨k, hk⟩, w⟩ := c
  simp only [Cursor.atPos, Cursor.readPos, Cursor.mk.injEq, true_and, and_true]
  refine ⟨by omega, Fin.ext ?_⟩
  simp [Fin.ofNat]; omega

/-- A cursor is its contents, its `WBIT` and its read position. -/
theorem cursor_eq_atPos {c d : Cursor} (hc : d.contents = c.contents) (hw : d.wbit = c.wbit) :
    d = c.atPos d.readPos := by
  conv_lhs => rw [← atPos_self d]
  simp [Cursor.atPos, hc, hw]

theorem unread_length (c : Cursor) : c.unread.length = 8 * c.contents.len - c.readPos := by
  simp [Cursor.unread, Memory.len]

theorem unread_atPos (c : Cursor) (n : Nat) : (c.atPos (c.readPos + n)).unread = c.unread.drop n := by
  simp [Cursor.unread]

theorem bitsOf_getElem? (bytes : Bytes) (i : Nat) {k : Nat} (hk : k < 8) :
    (bitsOf bytes)[8 * i + k]? = bytes[i]?.map fun b => b.getMsbD k := by
  induction bytes generalizing i with
  | nil => simp
  | cons b bytes ih =>
    rw [bitsOf_cons]
    cases i with
    | zero =>
      rw [List.getElem?_append_left (by simp; omega)]
      simp [bitsOfByte, hk]
    | succ i =>
      rw [List.getElem?_append_right (by simp; omega)]
      have : 8 * (i + 1) + k - (bitsOfByte b).length = 8 * i + k := by simp; omega
      rw [this, ih]; simp

/-! ### Reads -/

theorem advanceBit_eq (c : Cursor) : c.advanceBit = c.atPos (c.readPos + 1) := by
  obtain ⟨m, rb, ⟨k, hk⟩, w⟩ := c
  unfold Cursor.advanceBit
  split
  · rename_i h
    simp only at h
    simp only [Cursor.atPos, Cursor.readPos, Cursor.mk.injEq, true_and, and_true]
    refine ⟨by omega, Fin.ext ?_⟩
    simp [Fin.ofNat]; omega
  · rename_i h
    simp only at h
    simp only [Cursor.atPos, Cursor.readPos, Cursor.mk.injEq, true_and, and_true]
    refine ⟨by omega, Fin.ext ?_⟩
    simp [Fin.ofNat, Fin.val_add]; omega

/-- `ReadBit()` takes the first unread bit, or raises `Exhausted` with nothing changed when there is none (R96). -/
theorem readBit_eq (c : Cursor) :
    readBit c = match c.unread with
      | [] => .exhausted c
      | b :: _ => .got b (c.atPos (c.readPos + 1)) := by
  have hbit := bitsOf_getElem? c.contents.bytes c.rbyte c.rbit.isLt
  have hhead : c.unread[0]? = c.contents.bytes[c.rbyte]?.map fun b => b.getMsbD c.rbit.val := by
    rw [← hbit]; simp [Cursor.unread, Cursor.readPos]
  unfold readBit Memory.byte?
  cases hb : c.contents.bytes[c.rbyte]? with
  | none =>
    cases hu : c.unread with
    | nil => rfl
    | cons b rest => rw [hu, hb] at hhead; simp at hhead
  | some byte =>
    cases hu : c.unread with
    | nil => rw [hu, hb] at hhead; simp at hhead
    | cons b rest =>
      rw [hu, hb] at hhead
      simp at hhead
      simp [advanceBit_eq, hhead]

theorem readBit_nil {c : Cursor} (h : c.unread = []) : readBit c = .exhausted c := by rw [readBit_eq, h]

theorem readBit_cons {c : Cursor} {b : Bool} {rest : Bits} (h : c.unread = b :: rest) :
    readBit c = .got b (c.atPos (c.readPos + 1)) := by rw [readBit_eq, h]

/-- The bit reads of R97 and R115: `n` bits if there are as many, otherwise `Exhausted` with everything consumed. -/
theorem readBits_eq (n v : Nat) (c : Cursor) :
    readBits n v c =
      if n ≤ c.unread.length then .got (v * 2 ^ n + val (c.unread.take n)) (c.atPos (c.readPos + n))
      else .exhausted (c.atPos (c.readPos + c.unread.length)) := by
  induction n generalizing v c with
  | zero => simp [readBits, atPos_self]
  | succ n ih =>
    unfold readBits
    cases hu : c.unread with
    | nil => simp [readBit_nil hu, atPos_self]
    | cons b rest =>
      have hrest : (c.atPos (c.readPos + 1)).unread = rest := by rw [unread_atPos, hu]; rfl
      rw [readBit_cons hu]
      simp only [ih, hrest, atPos_readPos, atPos_atPos, List.length_cons, Nat.add_le_add_iff_right, List.take_succ_cons]
      split
      · rename_i h
        rw [val_cons, List.length_take, Nat.min_eq_left h]
        have e1 : (2 * v + b.toNat) * 2 ^ n + val (rest.take n) =
            v * 2 ^ (n + 1) + (b.toNat * 2 ^ n + val (rest.take n)) := by ring
        rw [e1, Nat.add_assoc, Nat.add_comm 1 n]
      · rw [Nat.add_assoc, Nat.add_comm 1]

/-! ### Writes -/

theorem byteOfBits_toNat {h : Bits} (hl : h.length ≤ 8) : (byteOfBits h).toNat = val h * 2 ^ (8 - h.length) := by
  have e : (h ++ zeros 8).take 8 = h ++ zeros (8 - h.length) := by
    rw [List.take_append, List.take_of_length_le hl, zeros, List.take_replicate, zeros]; congr 2; omega
  rw [byteOfBits, BitVec.toNat_ofNat, e, val_append, val_zeros, zeros_length, Nat.add_zero, Nat.mod_eq_of_lt]
  have := val_lt h
  calc val h * 2 ^ (8 - h.length) < 2 ^ h.length * 2 ^ (8 - h.length) := by gcongr
    _ = 2 ^ 8 := by rw [← pow_add]; congr 1; omega

/-- Storing a bit at the stream position behind the data bits of a byte whose other bits are zero (R92, R131). -/
theorem byteOfBits_or_bit {h : Bits} (hl : h.length < 8) (b : Bool) :
    byteOfBits h ||| BitVec.ofNat 8 (b.toNat <<< (7 - h.length)) = byteOfBits (h ++ [b]) := by
  apply BitVec.eq_of_toNat_eq
  have hb : b.toNat ≤ 1 := Bool.toNat_le b
  have e : 2 ^ (8 - h.length) = 2 * 2 ^ (7 - h.length) := by
    rw [show 8 - h.length = (7 - h.length) + 1 by omega, pow_succ]; ring
  have hp : 0 < 2 ^ (7 - h.length) := by positivity
  have hp8 : 2 ^ (7 - h.length) ≤ 2 ^ 7 := Nat.pow_le_pow_right (by omega) (by omega)
  have hlt : b.toNat <<< (7 - h.length) < 2 ^ (8 - h.length) := by
    rw [Nat.shiftLeft_eq, e]; nlinarith
  have hlt8 : b.toNat <<< (7 - h.length) < 2 ^ 8 := by
    rw [Nat.shiftLeft_eq]; nlinarith
  rw [BitVec.toNat_or, BitVec.toNat_ofNat, Nat.mod_eq_of_lt hlt8, byteOfBits_toNat (by omega),
    byteOfBits_toNat (by simp; omega), ← Nat.shiftLeft_eq, ← Nat.shiftLeft_add_eq_or_of_lt hlt, val_append,
    Nat.shiftLeft_eq, Nat.shiftLeft_eq, e]
  simp only [List.length_append, List.length_cons, List.length_nil, val_cons, val_nil]
  rw [show 8 - (h.length + (0 + 1)) = 7 - h.length by omega]
  ring

theorem modify_last (body : Bytes) (x : Byte) (f : Byte → Byte) :
    (body ++ [x]).modify ((body ++ [x]).length - 1) f = body ++ [f x] := by
  induction body with
  | nil => rfl
  | cons y body ih => simpa using ih

theorem mergeLast_append (body : Bytes) (x v : Byte) : (Memory.mk (body ++ [x])).mergeLast v = ⟨body ++ [x ||| v]⟩ := by
  simp only [Memory.mergeLast, modify_last]

/-- One appended bit goes behind the bits laid out at the end of `contents` (R92). -/
theorem appendBit_layout {c : Cursor} {body : Bytes} {h : Bits} (b : Bool)
    (hc : c.contents.bytes = body ++ bytesOf h) (hw : c.wbit.val = h.length % 8) :
    (c.appendBit b).contents.bytes = body ++ bytesOf (h ++ [b]) ∧
      (c.appendBit b).wbit.val = (h.length + 1) % 8 := by
  obtain ⟨h1, h2, rfl, hl1, hl2⟩ : ∃ h1 h2, h = h1 ++ h2 ∧ h1.length % 8 = 0 ∧ h2.length < 8 := by
    refine ⟨h.take (8 * (h.length / 8)), h.drop (8 * (h.length / 8)), (List.take_append_drop _ _).symm, ?_, ?_⟩
    · simp; omega
    · simp; omega
  have hw2 : c.wbit.val = h2.length := by rw [hw, List.length_append]; omega
  refine ⟨?_, ?_⟩
  · rw [List.append_assoc, bytesOf_append hl1, bytesOf_one (h2 ++ [b]) (by simp) (by simp; omega),
      ← byteOfBits_or_bit hl2, ← List.append_assoc]
    rw [bytesOf_append hl1, ← List.append_assoc] at hc
    simp only [Cursor.appendBit, hw2]
    by_cases h0 : h2 = []
    · subst h0
      rw [bytesOf_nil, List.append_nil] at hc
      simp only [List.length_nil, if_true, Memory.append, hc]
      rw [mergeLast_append]; rfl
    · have hpos : h2.length ≠ 0 := fun h => h0 (List.length_eq_zero_iff.mp h)
      rw [bytesOf_one h2 h0 (by omega)] at hc
      have hm : c.contents = ⟨body ++ bytesOf h1 ++ [byteOfBits h2]⟩ := by rw [← hc]
      rw [if_neg hpos, hm, mergeLast_append]
  · simp only [Cursor.appendBit, Fin.val_add, hw, List.length_append]
    simp

@[simp] theorem appendBit_rbyte (c : Cursor) (b : Bool) : (c.appendBit b).rbyte = c.rbyte := rfl

@[simp] theorem appendBit_rbit (c : Cursor) (b : Bool) : (c.appendBit b).rbit = c.rbit := rfl

theorem appendBits_readPointer (bits : Bits) (c : Cursor) :
    (bits.foldl Cursor.appendBit c).rbyte = c.rbyte ∧ (bits.foldl Cursor.appendBit c).rbit = c.rbit := by
  induction bits generalizing c with
  | nil => exact ⟨rfl, rfl⟩
  | cons b bits ih => simpa using ih (c.appendBit b)

/-- The appended bits go behind the bits laid out at the end of `contents` (R93). -/
theorem appendBits_layout {c : Cursor} {body : Bytes} {h : Bits} (bits : Bits)
    (hc : c.contents.bytes = body ++ bytesOf h) (hw : c.wbit.val = h.length % 8) :
    bits.foldl Cursor.appendBit c =
      { c with contents := ⟨body ++ bytesOf (h ++ bits)⟩, wbit := Fin.ofNat 8 (h.length + bits.length) } := by
  induction bits generalizing c h with
  | nil =>
    obtain ⟨m, rb, rbit, w⟩ := c
    simp only [List.foldl_nil, List.append_nil, List.length_nil, Nat.add_zero, Cursor.mk.injEq, true_and]
    exact ⟨by rw [← hc], Fin.ext hw⟩
  | cons b bits ih =>
    obtain ⟨h1, h2⟩ := appendBit_layout b hc hw
    rw [List.foldl_cons, ih h1 (by simpa using h2)]
    simp [Nat.add_assoc, Nat.add_comm 1]

/-- The bits already packed into a partly written last byte (R14), the `head` of R93. -/
def Cursor.head (c : Cursor) : Bits := ((c.contents.bytes.getLast?.map bitsOfByte).getD []).take c.wbit.val

/-- The bytes before the partly written last byte, the `body` of R93. -/
def Cursor.body (c : Cursor) : Bytes := if c.wbit = 0 then c.contents.bytes else c.contents.bytes.dropLast

/-- A cursor whose pad bits are zero is its body and the layout of its head (R21 item 4, R93). -/
theorem contents_layout {cfg : Config} {c : Cursor} (h : c.Ok cfg) :
    c.contents.bytes = c.body ++ bytesOf c.head ∧ c.head.length = c.wbit.val := by
  obtain ⟨-, -, hlen, hpad, -⟩ := h
  by_cases hw : c.wbit = 0
  · simp [Cursor.body, Cursor.head, hw]
  · have hne : c.contents.bytes ≠ [] := by
      have := hlen hw
      intro h0
      simp [Memory.len, h0] at this
    have hlast := List.getLast?_eq_some_getLast hne
    have hpad' := hpad hw _ (by rw [hlast]; rfl)
    set b := c.contents.bytes.getLast hne with hb
    have hhead : c.head = (bitsOfByte b).take c.wbit.val := by simp [Cursor.head, hlast]
    have hwv : c.wbit.val ≠ 0 := fun h => hw (Fin.ext h)
    have hl : c.head.length = c.wbit.val := by rw [hhead]; simp
    refine ⟨?_, hl⟩
    have hbyte : byteOfBits c.head = b := by
      apply BitVec.eq_of_toNat_eq
      rw [byteOfBits_toNat (by omega), hl, hhead]
      have hsplit := congrArg val (List.take_append_drop c.wbit.val (bitsOfByte b))
      rw [val_append, val_bitsOfByte] at hsplit
      have hd : ((bitsOfByte b).drop c.wbit.val).length = 8 - c.wbit.val := by simp
      have hlt := val_lt ((bitsOfByte b).drop c.wbit.val)
      rw [hd] at hsplit hlt
      rw [← hsplit, Nat.mul_add_mod_self_right, Nat.mod_eq_of_lt hlt] at hpad'
      omega
    rw [bytesOf_one c.head (by intro h0; simp [h0] at hl; omega) (by omega), hbyte, Cursor.body, if_neg hw, hb,
      List.dropLast_append_getLast]

/-! ### What the operations leave alone -/

theorem alignRead_contents (c : Cursor) : c.alignRead.contents = c.contents := by unfold Cursor.alignRead; split <;> rfl

theorem alignRead_wbit (c : Cursor) : c.alignRead.wbit = c.wbit := by unfold Cursor.alignRead; split <;> rfl

theorem alignRead_rbit (c : Cursor) : c.alignRead.rbit = 0 := by
  unfold Cursor.alignRead
  split
  · rfl
  · exact Fin.ext (by rename_i h; simpa using h)

theorem alignRead_readPos_le (c : Cursor) : c.readPos ≤ c.alignRead.readPos := by
  unfold Cursor.alignRead
  split
  · simp [Cursor.readPos]; have := c.rbit.isLt; omega
  · exact le_rfl

theorem skipRun_contents (c : Cursor) (tail : RbTail) (n : Nat) : (c.skipRun tail n).contents = c.contents := by
  cases tail <;> rfl

theorem skipRun_wbit (c : Cursor) (tail : RbTail) (n : Nat) : (c.skipRun tail n).wbit = c.wbit := by cases tail <;> rfl

theorem skipRun_rbit (c : Cursor) (tail : RbTail) (n : Nat) : (c.skipRun tail n).rbit = c.rbit := by cases tail <;> rfl

theorem skipRun_readPos_le (c : Cursor) (tail : RbTail) (n : Nat) (h : c.runExhausted tail n = false) :
    c.readPos ≤ (c.skipRun tail n).readPos := by
  simp [Cursor.runExhausted] at h
  cases tail <;> simp [Cursor.skipRun, Cursor.readPos] <;> omega

theorem appendBit_frame (c : Cursor) (b : Bool) :
    c.contents.len ≤ (c.appendBit b).contents.len ∧
    ∀ a, a + 1 < c.contents.len → (c.appendBit b).contents.byte? a = c.contents.byte? a := by
  unfold Cursor.appendBit
  simp only [Memory_mergeLast_len]
  split
  · refine ⟨by simp, fun a ha => ?_⟩
    rw [Memory_mergeLast_byte _ _ (by simp; omega), Memory_append_byte _ _ (by omega)]
  · exact ⟨le_rfl, fun a ha => Memory_mergeLast_byte _ _ ha⟩

/-- APPBITS leaves every byte but the last one alone (R11). -/
theorem appendBits_frame (bits : Bits) (c : Cursor) :
    c.contents.len ≤ (bits.foldl Cursor.appendBit c).contents.len ∧
    ∀ a, a + 1 < c.contents.len → (bits.foldl Cursor.appendBit c).contents.byte? a = c.contents.byte? a := by
  induction bits generalizing c with
  | nil => exact ⟨le_rfl, fun _ _ => rfl⟩
  | cons b bits ih =>
    obtain ⟨h1, h2⟩ := appendBit_frame c b
    obtain ⟨h3, h4⟩ := ih (c.appendBit b)
    exact ⟨by simpa using h1.trans h3, fun a ha => by rw [List.foldl_cons, h4 a (by omega), h2 a ha]⟩

/-- APPBITS at a byte boundary leaves every byte alone (R11). -/
theorem appendBits_frame_aligned (bits : Bits) (c : Cursor) (hw : c.wbit = 0) {a : Nat} (ha : a < c.contents.len) :
    (bits.foldl Cursor.appendBit c).contents.byte? a = c.contents.byte? a := by
  cases bits with
  | nil => rfl
  | cons b bits =>
    have hl : (c.appendBit b).contents.len = c.contents.len + 1 := by simp [Cursor.appendBit, hw]
    rw [List.foldl_cons, (appendBits_frame bits (c.appendBit b)).2 a (by omega)]
    simp only [Cursor.appendBit, hw]
    simp only [Fin.val_zero, if_true]
    rw [Memory_mergeLast_byte _ _ (by simp; omega), Memory_append_byte _ _ (by omega)]

/-- The capacity test of APPBITS, in bits (R92, R50). -/
theorem newBytes_le_iff {c : Cursor} (hl : c.wbit ≠ 0 → 1 ≤ c.contents.len) (n cap : Nat) :
    c.contents.len + c.newBytes n ≤ cap ↔ c.writePos + n ≤ 8 * cap := by
  unfold Cursor.newBytes Cursor.writePos
  have hw := c.wbit.isLt
  split <;> rename_i h
  · rw [h]; omega
  · have := hl (fun h0 => h (by rw [h0]; rfl))
    omega

/-- The read pointer with everything consumed (R48). -/
theorem atPos_end {c : Cursor} {cfg : Config} (h : c.Ok cfg) :
    c.atPos (c.readPos + c.unread.length) = { c with rbyte := max c.rbyte c.contents.len, rbit := 0 } := by
  obtain ⟨h1, h2, -⟩ := h
  have key : c.rbit.val ≠ 0 → c.rbyte < c.contents.len := fun h => h2 (fun h0 => h (by rw [h0]; rfl))
  have hb := c.rbit.isLt
  rw [unread_length]
  simp only [Cursor.atPos, Cursor.mk.injEq, true_and, and_true]
  simp only [Cursor.readPos]
  refine ⟨by omega, Fin.ext ?_⟩
  simp [Fin.ofNat]; omega

end Sys2Proof.Machine
end

