-- ==== Sys2Proof/Laws/Codec.lean ====
section
/-!
SUPPORT. Laws of the integer codes: bit lengths, the shape of an Exp-Golomb code, the signed mapping, and what the
decoder does on the unread bits of a cursor.
-/
namespace Sys2Proof.Machine

/-! ### Bit lengths -/

theorem bitlen_le_iff (x n : Nat) : bitlen x ≤ n ↔ x < 2 ^ n := by
  unfold bitlen
  split
  · rename_i h; subst h; simp
  · rename_i h; rw [Nat.add_one_le_iff, Nat.log2_lt h]

theorem bitlen_eq {x L : Nat} (h1 : 1 ≤ L) (h2 : 2 ^ (L - 1) ≤ x) (h3 : x < 2 ^ L) : bitlen x = L := by
  have a := (bitlen_le_iff x L).mpr h3
  have b : ¬ bitlen x ≤ L - 1 := fun h => by have := (bitlen_le_iff x (L - 1)).mp h; omega
  omega

theorem bitlen_pos {x : Nat} (h : x ≠ 0) : 1 ≤ bitlen x := by unfold bitlen; simp [h]

theorem pow_bitlen_le {x : Nat} (h : x ≠ 0) : 2 ^ (bitlen x - 1) ≤ x := by
  by_contra hc
  have := (bitlen_le_iff x (bitlen x - 1)).mpr (by omega)
  have := bitlen_pos h
  omega

theorem lt_pow_bitlen (x : Nat) : x < 2 ^ bitlen x := (bitlen_le_iff x _).mp le_rfl

/-! ### The shape of a code -/

/-- Prefix, marker and suffix of `ue(v)` (R62). -/
theorem ue_eq {v L : Nat} (h1 : 1 ≤ L) (h2 : 2 ^ (L - 1) ≤ v + 1) (h3 : v + 1 < 2 ^ L) :
    ue v = zeros (L - 1) ++ true :: bin (v + 1 - 2 ^ (L - 1)) (L - 1) := by
  unfold ue
  rw [bitlen_eq h1 h2 h3]
  congr 1
  obtain ⟨m, rfl⟩ : ∃ m, L = m + 1 := ⟨L - 1, by omega⟩
  apply val_inj
  · simp
  · simp only [Nat.add_sub_cancel] at *
    have hs : v + 1 - 2 ^ m < 2 ^ m := by rw [pow_succ] at h3; omega
    rw [val_bin_of_lt h3, val_cons, bin_length, val_bin_of_lt hs]
    simp; omega

/-- The `z` of a code (R64): `2^z - 1 <= v <= 2^(z+1) - 2`. -/
theorem ue_shape (v : Nat) :
    ∃ z s, 2 ^ z - 1 + s = v ∧ s < 2 ^ z ∧ ue v = zeros z ++ true :: bin s z ∧ bitlen (v + 1) = z + 1 := by
  have hL := bitlen_pos (x := v + 1) (by omega)
  have h2 := pow_bitlen_le (x := v + 1) (by omega)
  have h3 := lt_pow_bitlen (v + 1)
  have hpos : 0 < 2 ^ (bitlen (v + 1) - 1) := by positivity
  refine ⟨bitlen (v + 1) - 1, v + 1 - 2 ^ (bitlen (v + 1) - 1), by omega, ?_, ue_eq hL h2 h3, by omega⟩
  have : 2 ^ bitlen (v + 1) = 2 * 2 ^ (bitlen (v + 1) - 1) := by
    rw [mul_comm, ← pow_succ, Nat.sub_add_cancel hL]
  omega

/-! ### The signed mapping (R66, R67) -/

theorem signedof_odd {k : Nat} (h : k % 2 = 1) : signedof k = ((k + 1) / 2 : Nat) := by simp [signedof, h]

theorem signedof_even {k : Nat} (h : k % 2 = 0) : signedof k = -((k / 2 : Nat) : Int) := by simp [signedof, h]

theorem codenum_nonpos {v : Int} (h : v ≤ 0) : codenum v = 2 * v.natAbs := by simp [codenum, h]

theorem codenum_pos {v : Int} (h : 0 < v) : codenum v = 2 * v.natAbs - 1 := by simp [codenum, Int.not_le.mpr h]

theorem signedof_codenum_eq (v : Int) : signedof (codenum v) = v := by
  rcases le_or_gt v 0 with h | h
  · rw [codenum_nonpos h, signedof_even (by omega)]; omega
  · rw [codenum_pos h, signedof_odd (by omega)]; omega

theorem codenum_signedof_eq (k : Nat) : codenum (signedof k) = k := by
  rcases Nat.mod_two_eq_zero_or_one k with h | h
  · rw [signedof_even h, codenum_nonpos (by omega)]; omega
  · rw [signedof_odd h, codenum_pos (by omega)]; omega

/-- A signed word is in range exactly where its code number is below `2^VAL_W + 1` and not the top odd number. -/
theorem sext_twosWord {n : Nat} {v : Int} (hn : 1 ≤ n) (h1 : -(2 ^ (n - 1) : Int) ≤ v) (h2 : v < (2 ^ (n - 1) : Int)) :
    sext n (twosWord n v) = v := by
  obtain ⟨m, rfl⟩ : ∃ m, n = m + 1 := ⟨n - 1, by omega⟩
  simp only [Nat.add_sub_cancel] at *
  have hp : (2 : Int) ^ (m + 1) = 2 * 2 ^ m := by ring
  have hpos : (0 : Int) < 2 ^ m := by positivity
  have hcast : ((2 ^ m : Nat) : Int) = 2 ^ m := by push_cast; rfl
  unfold sext twosWord
  rw [hp]
  rcases Int.lt_or_le v 0 with hv | hv
  · have e : v % (2 * 2 ^ m) = v + 2 * 2 ^ m := by
      rw [← Int.add_emod_right, Int.emod_eq_of_lt] <;> omega
    rw [e, if_neg]
    · omega
    · simp only [Nat.add_sub_cancel]; omega
  · have e : v % (2 * 2 ^ m) = v := by rw [Int.emod_eq_of_lt] <;> omega
    rw [e, if_pos]
    · omega
    · simp only [Nat.add_sub_cancel]; omega

theorem twosWord_lt (n : Nat) (v : Int) : twosWord n v < 2 ^ n := by
  unfold twosWord
  have hpos : (0 : Int) < 2 ^ n := by positivity
  have h1 := Int.emod_lt_of_pos v hpos
  have h2 := Int.emod_nonneg v (ne_of_gt hpos)
  have hcast : ((2 ^ n : Nat) : Int) = 2 ^ n := by push_cast; rfl
  omega

theorem sext_bounds {n w : Nat} (hn : 1 ≤ n) (hw : w < 2 ^ n) :
    -(2 ^ (n - 1) : Int) ≤ sext n w ∧ sext n w < (2 ^ (n - 1) : Int) := by
  obtain ⟨m, rfl⟩ : ∃ m, n = m + 1 := ⟨n - 1, by omega⟩
  simp only [Nat.add_sub_cancel] at *
  have hp : (2 : Int) ^ (m + 1) = 2 * 2 ^ m := by ring
  have hq : 2 ^ (m + 1) = 2 * 2 ^ m := by ring
  have hcast : ((2 ^ m : Nat) : Int) = 2 ^ m := by push_cast; rfl
  unfold sext
  simp only [Nat.add_sub_cancel]
  split <;> omega

theorem twosWord_sext {n w : Nat} (hn : 1 ≤ n) (hw : w < 2 ^ n) : twosWord n (sext n w) = w := by
  obtain ⟨m, rfl⟩ : ∃ m, n = m + 1 := ⟨n - 1, by omega⟩
  have hp : (2 : Int) ^ (m + 1) = 2 * 2 ^ m := by ring
  have hq : 2 ^ (m + 1) = 2 * 2 ^ m := by ring
  have hcast : ((2 ^ m : Nat) : Int) = 2 ^ m := by push_cast; rfl
  unfold sext twosWord
  simp only [Nat.add_sub_cancel]
  split
  · rw [hp, Int.emod_eq_of_lt] <;> omega
  · rw [hp, ← Int.add_emod_right, Int.emod_eq_of_lt] <;> omega

/-! ### The decoder (R115) -/

/-- A prefix ended by its marker, of fewer zeros than the limit allows. -/
theorem readPrefix_found {left z : Nat} {c : Cursor} {rest : Bits} (z0 : Nat) (h : z < left)
    (hu : c.unread = zeros z ++ true :: rest) :
    readPrefix left z0 c = .got (z0 + z) (c.atPos (c.readPos + (z + 1))) := by
  induction z generalizing left z0 c with
  | zero =>
    obtain ⟨m, rfl⟩ : ∃ m, left = m + 1 := ⟨left - 1, by omega⟩
    simp [readPrefix, readBit_cons (show c.unread = true :: rest by simpa [zeros] using hu)]
  | succ z ih =>
    obtain ⟨m, rfl⟩ : ∃ m, left = m + 1 := ⟨left - 1, by omega⟩
    have hu' : c.unread = false :: (zeros z ++ true :: rest) := by simpa [zeros, List.replicate_succ] using hu
    have hrest : (c.atPos (c.readPos + 1)).unread = zeros z ++ true :: rest := by rw [unread_atPos, hu']; rfl
    rw [readPrefix, readBit_cons hu']
    have step := ih (left := m) (z0 + 1) (by omega) hrest
    rw [atPos_readPos, atPos_atPos] at step
    simp only [step]
    rw [show z0 + 1 + z = z0 + (z + 1) by omega, show c.readPos + 1 + (z + 1) = c.readPos + (z + 1 + 1) by omega]

/-- A prefix that the end of the buffer cuts. -/
theorem readPrefix_exhausted {left z : Nat} {c : Cursor} (z0 : Nat) (h : z < left) (hu : c.unread = zeros z) :
    readPrefix left z0 c = .exhausted (c.atPos (c.readPos + z)) := by
  induction z generalizing left z0 c with
  | zero =>
    obtain ⟨m, rfl⟩ : ∃ m, left = m + 1 := ⟨left - 1, by omega⟩
    simp [readPrefix, readBit_nil (show c.unread = [] by simpa [zeros] using hu), atPos_self]
  | succ z ih =>
    obtain ⟨m, rfl⟩ : ∃ m, left = m + 1 := ⟨left - 1, by omega⟩
    have hu' : c.unread = false :: zeros z := by simpa [zeros, List.replicate_succ] using hu
    have hrest : (c.atPos (c.readPos + 1)).unread = zeros z := by rw [unread_atPos, hu']; rfl
    rw [readPrefix, readBit_cons hu']
    have step := ih (left := m) (z0 + 1) (by omega) hrest
    rw [atPos_readPos, atPos_atPos] at step
    simp only [step]
    congr 2; omega

/-- A prefix of more zeros than the limit allows: the limit and one more are consumed. -/
theorem readPrefix_outOfRange {left : Nat} {c : Cursor} {rest : Bits} (z0 : Nat) (hu : c.unread = zeros left ++ rest) :
    readPrefix left z0 c = .outOfRange (c.atPos (c.readPos + left)) := by
  induction left generalizing z0 c with
  | zero => simp [readPrefix, atPos_self]
  | succ left ih =>
    have hu' : c.unread = false :: (zeros left ++ rest) := by simpa [zeros, List.replicate_succ] using hu
    have hrest : (c.atPos (c.readPos + 1)).unread = zeros left ++ rest := by rw [unread_atPos, hu']; rfl
    rw [readPrefix, readBit_cons hu']
    simp only [ih (z0 + 1) hrest, atPos_readPos, atPos_atPos]
    congr 2; omega

/-- A whole code is read and consumed, and nothing behind it (R64, R115). -/
theorem decodeCodeNum_code {lz z : Nat} {c : Cursor} {suffix rest : Bits} (h : z ≤ lz) (hs : suffix.length = z)
    (hu : c.unread = zeros z ++ true :: (suffix ++ rest)) :
    decodeCodeNum lz c = .got (2 ^ z - 1 + val suffix) (c.atPos (c.readPos + (2 * z + 1))) := by
  have hrest : (c.atPos (c.readPos + (z + 1))).unread = suffix ++ rest := by
    rw [unread_atPos, hu, ← List.drop_drop]
    simp [zeros]
  rw [decodeCodeNum, readPrefix_found 0 (by omega) hu]
  simp only [Nat.zero_add, readBits_eq, hrest, atPos_readPos, atPos_atPos]
  rw [if_pos (by simp [hs])]
  simp only [← hs, List.take_left, Nat.zero_mul, Nat.zero_add]
  congr 2; omega

/-- A code whose suffix the end of the buffer cuts. -/
theorem decodeCodeNum_cut {lz z : Nat} {c : Cursor} {suffix : Bits} (h : z ≤ lz) (hs : suffix.length < z)
    (hu : c.unread = zeros z ++ true :: suffix) :
    decodeCodeNum lz c = .exhausted (c.atPos (c.readPos + c.unread.length)) := by
  have hrest : (c.atPos (c.readPos + (z + 1))).unread = suffix := by
    rw [unread_atPos, hu, ← List.drop_drop]
    simp [zeros]
  rw [decodeCodeNum, readPrefix_found 0 (by omega) hu]
  simp only [Nat.zero_add, readBits_eq, hrest, atPos_readPos, atPos_atPos]
  rw [if_neg (by omega), hu]
  simp only [List.length_append, zeros_length, List.length_cons]
  congr 2; omega

/-- An all-zero rest within the limit. -/
theorem decodeCodeNum_zeros {lz z : Nat} {c : Cursor} (h : z ≤ lz) (hu : c.unread = zeros z) :
    decodeCodeNum lz c = .exhausted (c.atPos (c.readPos + z)) := by
  rw [decodeCodeNum, readPrefix_exhausted 0 (by omega) hu]

/-- More leading zeros than the limit. -/
theorem decodeCodeNum_outOfRange {lz : Nat} {c : Cursor} {rest : Bits} (hu : c.unread = zeros (lz + 1) ++ rest) :
    decodeCodeNum lz c = .outOfRange (c.atPos (c.readPos + (lz + 1))) := by
  rw [decodeCodeNum, readPrefix_outOfRange 0 hu]

/-- Whatever a decoder reads, it moves the read pointer forward within the unread bits and touches nothing else. -/
theorem readPrefix_moves (left z : Nat) (c : Cursor) :
    ∃ n ≤ c.unread.length,
      readPrefix left z c = .exhausted (c.atPos (c.readPos + n)) ∨
      readPrefix left z c = .outOfRange (c.atPos (c.readPos + n)) ∨
      ∃ k, readPrefix left z c = .got k (c.atPos (c.readPos + n)) := by
  induction left generalizing z c with
  | zero => exact ⟨0, by omega, .inr (.inl (by simp [readPrefix, atPos_self]))⟩
  | succ left ih =>
    cases hu : c.unread with
    | nil => exact ⟨0, by simp, .inl (by simp [readPrefix, readBit_nil hu, atPos_self])⟩
    | cons b rest =>
      cases b with
      | true => exact ⟨1, by simp, .inr (.inr ⟨z, by simp [readPrefix, readBit_cons hu]⟩)⟩
      | false =>
        obtain ⟨n, hn, h⟩ := ih (z + 1) (c.atPos (c.readPos + 1))
        rw [unread_atPos, hu] at hn
        simp only [List.drop_succ_cons, List.drop_zero] at hn
        rw [atPos_readPos, atPos_atPos, Nat.add_assoc, Nat.add_comm 1] at h
        exact ⟨n + 1, by simpa using hn, by simpa [readPrefix, readBit_cons hu] using h⟩

theorem decodeCodeNum_moves (lz : Nat) (c : Cursor) :
    ∃ n ≤ c.unread.length,
      decodeCodeNum lz c = .exhausted (c.atPos (c.readPos + n)) ∨
      decodeCodeNum lz c = .outOfRange (c.atPos (c.readPos + n)) ∨
      ∃ k, decodeCodeNum lz c = .got k (c.atPos (c.readPos + n)) := by
  obtain ⟨n, hn, h | h | ⟨k, h⟩⟩ := readPrefix_moves (lz + 1) 0 c
  · exact ⟨n, hn, .inl (by simp [decodeCodeNum, h])⟩
  · exact ⟨n, hn, .inr (.inl (by simp [decodeCodeNum, h]))⟩
  · have hl : (c.atPos (c.readPos + n)).unread.length = c.unread.length - n := by simp [unread_atPos]
    rw [decodeCodeNum, h]
    simp only [readBits_eq, atPos_readPos, atPos_atPos, hl]
    by_cases hk : k ≤ c.unread.length - n
    · simp only [if_pos hk]
      exact ⟨n + k, by omega, .inr (.inr ⟨_, by rw [Nat.add_assoc]⟩)⟩
    · simp only [if_neg hk]
      exact ⟨c.unread.length, le_rfl, .inl (by rw [Nat.add_assoc, Nat.add_sub_cancel' hn])⟩

end Sys2Proof.Machine
end

