-- ==== Sys2Proof/Laws/Decode.lean ====
section
/-!
SUPPORT. Laws of the command encoding: what the operand readers do on the operand bytes of a command and what they
tell about the bytes they read, and the two ways between command words and rows.
-/
namespace Sys2Proof

open Sys2Proof.Machine

/-! ### Bytes -/

theorem takeBytes_eq_some_iff (n : Nat) (bs a b : Bytes) :
    takeBytes n bs = some (a, b) ↔ a.length = n ∧ bs = a ++ b := by
  unfold takeBytes
  split
  · rename_i h
    simp only [Option.some.injEq, Prod.mk.injEq]
    constructor
    · rintro ⟨rfl, rfl⟩; simp [h]
    · rintro ⟨rfl, rfl⟩; simp
  · rename_i h
    simp only [reduceCtorEq, false_iff, not_and]
    rintro rfl rfl
    simp at h

theorem takeBytes_append {n : Nat} {l : Bytes} (h : l.length = n) (r : Bytes) : takeBytes n (l ++ r) = some (l, r) :=
  (takeBytes_eq_some_iff n (l ++ r) l r).mpr ⟨h, rfl⟩

theorem word_of_beBytes (cw : BitVec 32) : BitVec.ofNat 32 (beVal (beBytes 4 cw.toNat)) = cw := by
  rw [beVal_beBytes, Nat.mod_eq_of_lt (by have := cw.isLt; omega)]; simp

theorem beBytes_of_word {w : Bytes} (h : w.length = 4) : beBytes 4 (BitVec.ofNat 32 (beVal w)).toNat = w := by
  have := beVal_lt w
  rw [BitVec.toNat_ofNat, Nat.mod_eq_of_lt (by rw [h] at this; omega)]
  have e := beBytes_beVal w
  rwa [h] at e

/-! ### Operand words and payloads -/

theorem pow_valW_le (c : Config) : 2 ^ c.valW ≤ 256 ^ c.valBytes := by
  rw [show (256 : Nat) = 2 ^ 8 by norm_num, ← pow_mul]
  exact Nat.pow_le_pow_right (by omega) (by unfold Config.valBytes; omega)

theorem takeValue_valueBytes (c : Config) {v : Nat} (h : v < 2 ^ c.valW) (rest : Bytes) :
    takeValue c (valueBytes c v ++ rest) = some (.ok v, rest) := by
  have e : beVal (valueBytes c v) = v := by
    rw [valueBytes, beVal_beBytes, Nat.mod_eq_of_lt (lt_of_lt_of_le h (pow_valW_le c))]
  rw [takeValue, takeBytes_append (by simp [valueBytes])]
  simp [e, h]

theorem takeValue_ok {c : Config} {bs rest : Bytes} {v : Nat} (h : takeValue c bs = some (.ok v, rest)) :
    v < 2 ^ c.valW ∧ bs = valueBytes c v ++ rest := by
  unfold takeValue at h
  split at h
  · simp at h
  · rename_i w r heq
    obtain ⟨hl, rfl⟩ := (takeBytes_eq_some_iff _ _ _ _).mp heq
    split at h
    · rename_i hlt
      simp at h
      obtain ⟨rfl, rfl⟩ := h
      refine ⟨hlt, ?_⟩
      rw [valueBytes, ← hl, beBytes_beVal]
    · simp at h

theorem takeCount_append {n : Nat} (h : n < 2 ^ cntW) (rest : Bytes) :
    takeCount (beBytes (cntW / 8) n ++ rest) = some (n, rest) := by
  rw [takeCount, takeBytes_append (by simp)]
  simp [beVal_beBytes, cntW] at *
  omega

theorem takeCount_some {bs rest : Bytes} {n : Nat} (h : takeCount bs = some (n, rest)) :
    n < 2 ^ cntW ∧ bs = beBytes (cntW / 8) n ++ rest := by
  unfold takeCount at h
  cases ht : takeBytes (cntW / 8) bs with
  | none => simp [ht] at h
  | some p =>
    obtain ⟨w, r⟩ := p
    rw [ht] at h
    simp at h
    obtain ⟨rfl, rfl⟩ := h
    obtain ⟨hl, rfl⟩ := (takeBytes_eq_some_iff _ _ _ _).mp ht
    have := beVal_lt w
    refine ⟨?_, ?_⟩
    · rw [hl] at this; simpa [cntW] using this
    · rw [← hl, beBytes_beVal]

theorem takePayloadBytes_payloadBytes {bytes : Bytes} (h : countFits bytes.length = true) (rest : Bytes) :
    takePayloadBytes (payloadBytes bytes ++ rest) = some (.ok bytes, rest) := by
  rw [takePayloadBytes, payloadBytes, List.append_assoc, takeCount_append (by simpa [countFits] using h)]
  simp [takeBytes_append]

theorem takePayloadBytes_ok {bs rest bytes : Bytes} (h : takePayloadBytes bs = some (.ok bytes, rest)) :
    countFits bytes.length = true ∧ bs = payloadBytes bytes ++ rest := by
  unfold takePayloadBytes at h
  split at h
  · simp at h
  · rename_i n r hc
    obtain ⟨hn, rfl⟩ := takeCount_some hc
    cases ht : takeBytes n r with
    | none => simp [ht] at h
    | some p =>
      obtain ⟨w, r'⟩ := p
      rw [ht] at h
      simp at h
      obtain ⟨rfl, rfl⟩ := h
      obtain ⟨hl, rfl⟩ := (takeBytes_eq_some_iff _ _ _ _).mp ht
      subst hl
      exact ⟨by simpa [countFits] using hn, by simp [payloadBytes]⟩

theorem takePayloadBits_payloadBits {bits : Bits} (h : countFits bits.length = true) (rest : Bytes) :
    takePayloadBits (payloadBits bits ++ rest) = some (.ok bits, rest) := by
  rw [takePayloadBits, payloadBits, List.append_assoc, takeCount_append (by simpa [countFits] using h)]
  simp [takeBytes_append, bitsOf_bytesOf, zeros]

theorem takePayloadBits_ok {bs rest : Bytes} {bits : Bits} (h : takePayloadBits bs = some (.ok bits, rest)) :
    countFits bits.length = true ∧ bs = payloadBits bits ++ rest := by
  unfold takePayloadBits at h
  split at h
  · simp at h
  · rename_i n r hc
    obtain ⟨hn, rfl⟩ := takeCount_some hc
    cases ht : takeBytes ((n + 7) / 8) r with
    | none => simp [ht] at h
    | some p =>
      obtain ⟨w, r'⟩ := p
      rw [ht] at h
      obtain ⟨hl, rfl⟩ := (takeBytes_eq_some_iff _ _ _ _).mp ht
      simp only [Option.map_some, Option.some.injEq, Prod.mk.injEq] at h
      obtain ⟨h, rfl⟩ := h
      split at h
      · rename_i hpad
        simp only [Except.ok.injEq] at h
        have hbl : bits.length = n := by rw [← h]; simp; omega
        refine ⟨by simpa [countFits, hbl] using hn, ?_⟩
        have hb : bytesOf bits = w := by
          rw [bytesOf_eq_iff bits w (by rw [hbl, hl])]
          refine ⟨by rw [hbl, h], ?_⟩
          intro b hb
          rw [hbl] at hb
          simpa using List.all_eq_true.mp hpad b hb
        rw [payloadBits, hb, hbl, List.append_assoc]
      · simp at h

theorem to_eq_ok {α : Type} {t : Taken α} {mk : α → Instr} {i : Instr} {rest : Bytes} :
    t.to mk = some (.ok i, rest) ↔ ∃ a, t = some (.ok a, rest) ∧ mk a = i := by
  constructor
  · intro h
    cases ht : t with
    | none => rw [ht] at h; simp [Taken.to] at h
    | some p =>
      obtain ⟨e, r⟩ := p
      rw [ht] at h
      cases e with
      | error why => simp [Taken.to, Except.map] at h
      | ok a =>
        simp [Taken.to, Except.map] at h
        exact ⟨a, by rw [h.2], h.1⟩
  · rintro ⟨a, rfl, rfl⟩; rfl

theorem takeValues_ok {c : Config} {bs rest : Bytes} {p : Nat × Nat} (h : takeValues c bs = some (.ok p, rest)) :
    p.1 < 2 ^ c.valW ∧ p.2 < 2 ^ c.valW ∧ bs = valueBytes c p.1 ++ valueBytes c p.2 ++ rest := by
  unfold takeValues at h
  split at h
  · simp at h
  · rename_i v r h1
    split at h
    · simp at h
    · rename_i v2 r2 h2
      cases v with
      | error w => simp [Except.bind] at h
      | ok a =>
        cases v2 with
        | error w => simp [Except.bind, Except.map] at h
        | ok b =>
          simp [Except.bind, Except.map] at h
          obtain ⟨rfl, rfl⟩ := h
          obtain ⟨ha, rfl⟩ := takeValue_ok h1
          obtain ⟨hb, rfl⟩ := takeValue_ok h2
          exact ⟨ha, hb, by simp⟩

/-! ### A command's bytes -/

/-- The `W` field of a command (R82). -/
def Instr.wField : Instr → BitVec 8
  | .rdreg r => r
  | .wrctrl w => w
  | .rdbits n => n
  | .encf width _ => width
  | .init | .load _ | .dump | .appbytes _ | .appbits _ | .rdbytes _ | .encue _ | .encse _ | .decue | .decse
  | .widthu _ | .widths _ _ | .pack _ | .epins _ => 0#8

/-- The bytes after the command word (R78 to R80). -/
def Instr.operandBytes (c : Config) : Instr → Bytes
  | .init | .dump | .rdreg _ | .wrctrl _ | .rdbits _ | .decue | .decse => []
  | .load bytes | .appbytes bytes | .epins bytes => payloadBytes bytes
  | .appbits bits | .pack bits => payloadBits bits
  | .rdbytes v | .encf _ v | .encue v | .widthu v => valueBytes c v
  | .encse v => signedBytes c v
  | .widths lo hi => signedBytes c lo ++ signedBytes c hi

theorem encode_eq (c : Config) (i : Instr) :
    encode c i = commandWordBytes i.op.opc i.wField ++ i.operandBytes c := by
  cases i <;> simp [encode, Instr.wField, Instr.operandBytes]

@[simp] theorem commandWordBytes_length (opc w : BitVec 8) : (commandWordBytes opc w).length = 4 := by
  simp [commandWordBytes]

theorem wf_valW {c : Config} (h : c.wf = true) : 1 ≤ c.valW := by
  simp [Config.wf] at h; omega

/-- The operand readers give back the operands of a command that can be presented. -/
theorem takeOperands_operandBytes {c : Config} {i : Instr} (hc : c.wf = true) (hi : i.wf c = true) (rest : Bytes) :
    takeOperands c i.op i.wField (i.operandBytes c ++ rest) = some (.ok i, rest) := by
  have h1 := wf_valW hc
  cases i with
  | init | dump | rdreg | wrctrl | rdbits | decue | decse => rfl
  | load bytes | appbytes bytes | epins bytes =>
    exact to_eq_ok.mpr ⟨bytes, takePayloadBytes_payloadBytes hi rest, rfl⟩
  | appbits bits | pack bits => exact to_eq_ok.mpr ⟨bits, takePayloadBits_payloadBits hi rest, rfl⟩
  | rdbytes v | encf _ v | encue v | widthu v =>
    exact to_eq_ok.mpr ⟨v, takeValue_valueBytes c (by simpa [Instr.wf, unsignedFits] using hi) rest, rfl⟩
  | encse v =>
    simp [Instr.wf, signedFits] at hi
    exact to_eq_ok.mpr ⟨_, takeValue_valueBytes c (twosWord_lt _ _) rest, by rw [sext_twosWord h1 hi.1 hi.2]⟩
  | widths lo hi' =>
    simp [Instr.wf, signedFits] at hi
    refine to_eq_ok.mpr ⟨(twosWord c.valW lo, twosWord c.valW hi'), ?_, ?_⟩
    · simp only [Instr.operandBytes, signedBytes, List.append_assoc, takeValues]
      rw [takeValue_valueBytes c (twosWord_lt _ _)]
      simp only
      rw [takeValue_valueBytes c (twosWord_lt _ _)]
      rfl
    · simp only
      rw [sext_twosWord h1 hi.1.1 hi.1.2, sext_twosWord h1 hi.2.1 hi.2.2]

/-- The operand readers accept only the operand bytes of the command they give. -/
theorem takeOperands_ok {c : Config} {op : Op} {w : BitVec 8} {bs rest : Bytes} {i : Instr} (hc : c.wf = true)
    (hw : op = .rdreg ∨ op = .wrctrl ∨ op = .rdbits ∨ op = .encf ∨ w = 0#8)
    (h : takeOperands c op w bs = some (.ok i, rest)) :
    i.op = op ∧ i.wField = w ∧ i.wf c = true ∧ bs = i.operandBytes c ++ rest := by
  have h1 := wf_valW hc
  cases op with
  | init | dump | decue | decse =>
    simp at hw
    simp only [takeOperands, Option.some.injEq, Prod.mk.injEq, Except.ok.injEq] at h
    obtain ⟨rfl, rfl⟩ := h
    exact ⟨rfl, hw.symm, rfl, rfl⟩
  | rdreg | wrctrl | rdbits =>
    simp only [takeOperands, Option.some.injEq, Prod.mk.injEq, Except.ok.injEq] at h
    obtain ⟨rfl, rfl⟩ := h
    exact ⟨rfl, rfl, rfl, rfl⟩
  | load | appbytes | epins =>
    simp at hw
    obtain ⟨a, ha, rfl⟩ := to_eq_ok.mp h
    obtain ⟨h2, h3⟩ := takePayloadBytes_ok ha
    exact ⟨rfl, hw.symm, h2, h3⟩
  | appbits | pack =>
    simp at hw
    obtain ⟨a, ha, rfl⟩ := to_eq_ok.mp h
    obtain ⟨h2, h3⟩ := takePayloadBits_ok ha
    exact ⟨rfl, hw.symm, h2, h3⟩
  | rdbytes | encue | widthu =>
    simp at hw
    obtain ⟨a, ha, rfl⟩ := to_eq_ok.mp h
    obtain ⟨h2, h3⟩ := takeValue_ok ha
    exact ⟨rfl, hw.symm, by simpa [Instr.wf, unsignedFits] using h2, h3⟩
  | encf =>
    obtain ⟨a, ha, rfl⟩ := to_eq_ok.mp h
    obtain ⟨h2, h3⟩ := takeValue_ok ha
    exact ⟨rfl, rfl, by simpa [Instr.wf, unsignedFits] using h2, h3⟩
  | encse =>
    simp at hw
    obtain ⟨a, ha, rfl⟩ := to_eq_ok.mp h
    obtain ⟨h2, h3⟩ := takeValue_ok ha
    have hb := sext_bounds h1 h2
    exact ⟨rfl, hw.symm, by simpa [Instr.wf, signedFits] using hb,
      by simpa [Instr.operandBytes, signedBytes, twosWord_sext h1 h2] using h3⟩
  | widths =>
    simp at hw
    obtain ⟨a, ha, rfl⟩ := to_eq_ok.mp h
    obtain ⟨h2, h3, h4⟩ := takeValues_ok ha
    have hb := sext_bounds h1 h2
    have hb' := sext_bounds h1 h3
    exact ⟨rfl, hw.symm, by simpa [Instr.wf, signedFits] using ⟨hb, hb'⟩,
      by simpa [Instr.operandBytes, signedBytes, twosWord_sext h1 h2, twosWord_sext h1 h3] using h4⟩

/-! ### Command words and rows -/

theorem commandWord_toNat (opc w : BitVec 8) : (commandWord opc w).toNat = opc.toNat * 2 ^ 24 + w.toNat * 2 ^ 16 := by
  show (opc ++ w ++ 0#16 : BitVec (8 + 8 + 16)).toNat = _
  rw [BitVec.toNat_append, BitVec.toNat_append, ← Nat.shiftLeft_add_eq_or_of_lt w.isLt,
    ← Nat.shiftLeft_add_eq_or_of_lt (BitVec.isLt _)]
  simp only [Nat.shiftLeft_eq, BitVec.toNat_ofNat]
  omega

@[simp] theorem opcOf_commandWord (opc w : BitVec 8) : opcOf (commandWord opc w) = opc := by
  apply BitVec.eq_of_toNat_eq
  have h1 := opc.isLt
  have h2 := w.isLt
  rw [opcOf, BitVec.extractLsb'_toNat, commandWord_toNat, Nat.shiftRight_eq_div_pow]
  omega

@[simp] theorem wOf_commandWord (opc w : BitVec 8) : wOf (commandWord opc w) = w := by
  apply BitVec.eq_of_toNat_eq
  have h1 := opc.isLt
  have h2 := w.isLt
  rw [wOf, BitVec.extractLsb'_toNat, commandWord_toNat, Nat.shiftRight_eq_div_pow]
  omega

theorem commandWord_of_fields {cw : BitVec 32} (h : rsvOf cw = 0#16) : cw = commandWord (opcOf cw) (wOf cw) := by
  apply BitVec.eq_of_toNat_eq
  have h1 := cw.isLt
  have h2 := congrArg BitVec.toNat h
  rw [rsvOf, BitVec.extractLsb'_toNat, Nat.shiftRight_eq_div_pow] at h2
  rw [commandWord_toNat, opcOf, wOf, BitVec.extractLsb'_toNat, BitVec.extractLsb'_toNat, Nat.shiftRight_eq_div_pow,
    Nat.shiftRight_eq_div_pow]
  simp at h2
  omega

/-- The bits of a command word that a mask with `W` free fixes (R82). -/
theorem masked_fields {cw : BitVec 32} {opc : BitVec 8} (h : cw &&& 0xFF00FFFF#32 = commandWord opc 0#8) :
    opcOf cw = opc ∧ rsvOf cw = 0#16 := by
  have e1 : opcOf (cw &&& 0xFF00FFFF#32) = opcOf cw := by
    apply BitVec.eq_of_getLsbD_eq
    intro i hi
    simp only [opcOf, BitVec.getLsbD_extractLsb', BitVec.getLsbD_and, hi, decide_true, Bool.true_and]
    have : (0xFF00FFFF#32).getLsbD (24 + i) = true := by interval_cases i <;> decide
    simp [this]
  have e2 : rsvOf (cw &&& 0xFF00FFFF#32) = rsvOf cw := by
    apply BitVec.eq_of_getLsbD_eq
    intro i hi
    simp only [rsvOf, BitVec.getLsbD_extractLsb', BitVec.getLsbD_and, hi, decide_true, Bool.true_and]
    have : (0xFF00FFFF#32).getLsbD (0 + i) = true := by interval_cases i <;> decide
    simp only [this, Bool.and_true]
  refine ⟨by rw [← e1, h, opcOf_commandWord], ?_⟩
  rw [← e2, h]
  apply BitVec.eq_of_toNat_eq
  rw [rsvOf, BitVec.extractLsb'_toNat, commandWord_toNat, Nat.shiftRight_eq_div_pow]
  have := opc.isLt
  simp
  omega

/-- Does a command use its `W` field (R82)? -/
def Op.usesW : Op → Bool
  | .rdreg | .wrctrl | .rdbits | .encf => true
  | .init | .load | .dump | .appbytes | .appbits | .rdbytes | .encue | .encse | .decue | .decse | .widthu | .widths
  | .pack | .epins => false

/-- Every row is the word of its opcode, its mask freeing `W` where the command uses it (R82). -/
theorem opcodeTable_rows : ∀ r ∈ opcodeTable,
    r.pattern = commandWord r.op.opc 0#8 ∧ r.mask = (if r.op.usesW then 0xFF00FFFF#32 else 0xFFFFFFFF#32) := by
  decide

theorem opc_injective {a b : Op} (h : a.opc = b.opc) : a = b := by
  revert h; cases a <;> cases b <;> decide

/-- The one row of an operation. -/
theorem opcodeTable_row (op : Op) : ∃ r ∈ opcodeTable, r.op = op := by
  cases op <;> decide

theorem opcodeTable_op_injective : ∀ r ∈ opcodeTable, ∀ r' ∈ opcodeTable, r.op = r'.op → r = r' := by decide

/-- What a word says that matches a row (R82). -/
theorem matches_fields {r : OpcodeRow} {cw : BitVec 32} (hr : r ∈ opcodeTable) (h : cw &&& r.mask = r.pattern) :
    cw = commandWord r.op.opc (wOf cw) ∧ (r.op.usesW = true ∨ wOf cw = 0#8) := by
  obtain ⟨hp, hm⟩ := opcodeTable_rows r hr
  rw [hp, hm] at h
  by_cases hu : r.op.usesW = true
  · rw [if_pos hu] at h
    obtain ⟨h1, h2⟩ := masked_fields h
    exact ⟨by rw [← h1]; exact commandWord_of_fields h2, .inl hu⟩
  · rw [if_neg hu] at h
    have e : cw = commandWord r.op.opc 0#8 := by
      rw [← h]
      apply BitVec.eq_of_getLsbD_eq
      intro i hi
      have : (0xFFFFFFFF#32).getLsbD i = true := by interval_cases i <;> decide
      simp [this]
    have hw : wOf cw = 0#8 := by rw [e]; simp
    exact ⟨by rw [hw]; exact e, .inr hw⟩

/-- A word built from fields matches the row of its operation. -/
theorem commandWord_matches {r : OpcodeRow} (hr : r ∈ opcodeTable) {w : BitVec 8} (hw : r.op.usesW = true ∨ w = 0#8) :
    commandWord r.op.opc w &&& r.mask = r.pattern := by
  obtain ⟨hp, hm⟩ := opcodeTable_rows r hr
  rw [hp, hm]
  by_cases hu : r.op.usesW = true
  · rw [if_pos hu]
    have key : ∀ i, i < 32 → (0xFF00FFFF#32).getLsbD i = (!(decide (16 ≤ i) && decide (i < 24))) := by decide
    apply BitVec.eq_of_getLsbD_eq
    intro i hi
    rw [BitVec.getLsbD_and, key i hi]
    show ((r.op.opc ++ w ++ 0#16 : BitVec (8 + 8 + 16)).getLsbD i && _) =
      (r.op.opc ++ 0#8 ++ 0#16 : BitVec (8 + 8 + 16)).getLsbD i
    simp only [BitVec.getLsbD_append, BitVec.getLsbD_zero]
    by_cases h16 : i < 16
    · simp [h16]
    · by_cases h24 : i - 16 < 8
      · simp [h16, h24]
        omega
      · have : ¬ i < 24 := by omega
        simp [h16, h24, this]
  · rw [if_neg hu]
    have hw0 : w = 0#8 := by simpa [hu] using hw
    subst hw0
    apply BitVec.eq_of_getLsbD_eq
    intro i hi
    have : (0xFFFFFFFF#32).getLsbD i = true := by interval_cases i <;> decide
    simp [this]

/-- A word selects a row exactly when it matches it (R82). -/
theorem selectRow_eq_some_iff (cw : BitVec 32) (r : OpcodeRow) :
    selectRow cw = some r ↔ r ∈ opcodeTable ∧ cw &&& r.mask = r.pattern := by
  constructor
  · intro h
    exact ⟨List.mem_of_find?_eq_some h, by simpa [OpcodeRow.matches] using List.find?_some h⟩
  · rintro ⟨hr, hm⟩
    cases hs : selectRow cw with
    | none =>
      have := List.find?_eq_none.mp hs r hr
      simp [OpcodeRow.matches, hm] at this
    | some r' =>
      have hr' := List.mem_of_find?_eq_some hs
      have hm' : cw &&& r'.mask = r'.pattern := by simpa [OpcodeRow.matches] using List.find?_some hs
      have e1 := congrArg opcOf (matches_fields hr hm).1
      have e2 := congrArg opcOf (matches_fields hr' hm').1
      rw [opcOf_commandWord] at e1 e2
      rw [opcodeTable_op_injective r hr r' hr' (opc_injective (e1.symm.trans e2))]

theorem selectRow_eq_none_iff (cw : BitVec 32) :
    selectRow cw = none ↔ ∀ r ∈ opcodeTable, cw &&& r.mask ≠ r.pattern := by
  simp [selectRow, List.find?_eq_none, OpcodeRow.matches]

/-- The row an opcode belongs to (R84). -/
theorem opcodeRow_eq_some {cw : BitVec 32} {op : Op} (h : opcOf cw = op.opc) :
    ∃ r ∈ opcodeTable, r.op = op ∧ opcodeRow cw = some r := by
  obtain ⟨r, hr, rfl⟩ := opcodeTable_row op
  refine ⟨r, hr, rfl, ?_⟩
  cases hs : opcodeRow cw with
  | none =>
    have := List.find?_eq_none.mp hs r hr
    simp [h, (opcodeTable_rows r hr).1] at this
  | some r' =>
    have hr' := List.mem_of_find?_eq_some hs
    have e : opcOf r'.pattern = opcOf cw := by simpa using List.find?_some hs
    rw [(opcodeTable_rows r' hr').1, opcOf_commandWord, h] at e
    rw [opcodeTable_op_injective r' hr' r hr (opc_injective e)]

theorem usesW_cases (i : Instr) : i.op.usesW = true ∨ i.wField = 0#8 := by
  cases i <;> simp [Instr.op, Op.usesW, Instr.wField]

/-- The decoder on a command word and what follows it. -/
theorem decode_word (c : Config) (cw : BitVec 32) (rest : Bytes) :
    decode c (beBytes 4 cw.toNat ++ rest) =
      match selectRow cw with
      | some r => decodeRow c r cw rest
      | none => decodeIllegal c cw rest := by
  rw [decode, takeBytes_append (by simp)]
  cases h : selectRow cw <;> simp [word_of_beBytes, h]

/-- How many bytes the operands take does not depend on `W` (R84). -/
theorem takeOperands_rest (c : Config) (op : Op) (w w' : BitVec 8) (bs : Bytes) :
    (takeOperands c op w bs).map Prod.snd = (takeOperands c op w' bs).map Prod.snd := by
  cases op <;> simp [takeOperands, Taken.to, Function.comp_def]

/-! ### The decoder takes one command from the front -/

/-- A reader that takes bytes from the front and does not look at the ones behind. -/
def TakesFront {α : Type} (f : Bytes → Option (α × Bytes)) : Prop :=
  ∀ bs x rest, f bs = some (x, rest) → ∃ taken, bs = taken ++ rest ∧ ∀ r, f (taken ++ r) = some (x, r)

theorem takesFront_done {α : Type} (x : α) : TakesFront fun bs => some (x, bs) := by
  intro bs y rest h
  simp only [Option.some.injEq, Prod.mk.injEq] at h
  exact ⟨[], by simp [h.2], fun r => by simp [h.1]⟩

theorem takesFront_map {α β : Type} {f : Bytes → Option (α × Bytes)} (hf : TakesFront f) (g : α → β) :
    TakesFront fun bs => (f bs).map fun p => (g p.1, p.2) := by
  intro bs y rest h
  cases hb : f bs with
  | none => simp [hb] at h
  | some p =>
    simp only [hb, Option.map_some, Option.some.injEq, Prod.mk.injEq] at h
    obtain ⟨rfl, rfl⟩ := h
    obtain ⟨taken, e, ht⟩ := hf bs p.1 p.2 hb
    exact ⟨taken, e, fun r => by simp [ht r]⟩

theorem takesFront_bind {α β : Type} {f : Bytes → Option (α × Bytes)} {g : α → Bytes → Option (β × Bytes)}
    (hf : TakesFront f) (hg : ∀ x, TakesFront (g x)) : TakesFront fun bs => (f bs).bind fun p => g p.1 p.2 := by
  intro bs y rest h
  cases hb : f bs with
  | none => simp [hb] at h
  | some p =>
    simp only [hb, Option.bind_some] at h
    obtain ⟨t1, rfl, h1⟩ := hf bs p.1 p.2 hb
    obtain ⟨t2, e2, h2⟩ := hg p.1 p.2 y rest h
    exact ⟨t1 ++ t2, by rw [e2, List.append_assoc], fun r => by simp [h1, h2]⟩

theorem takeBytes_front (n : Nat) : TakesFront (takeBytes n) := by
  intro bs x rest h
  obtain ⟨hl, rfl⟩ := (takeBytes_eq_some_iff _ _ _ _).mp h
  exact ⟨x, rfl, takeBytes_append hl⟩

theorem takeValue_front (c : Config) : TakesFront (takeValue c) := by
  have e : takeValue c = fun bs => (takeBytes c.valBytes bs).map fun p =>
      ((if beVal p.1 < 2 ^ c.valW then .ok (beVal p.1) else .error .valueHighBits : Except IllegalReason Nat), p.2) := by
    funext bs
    unfold takeValue
    cases takeBytes c.valBytes bs <;> rfl
  rw [e]
  exact takesFront_map (takeBytes_front c.valBytes)
    fun w => (if beVal w < 2 ^ c.valW then .ok (beVal w) else .error .valueHighBits : Except IllegalReason Nat)

theorem takeValues_front (c : Config) : TakesFront (takeValues c) := by
  have e : takeValues c = fun bs => (takeValue c bs).bind fun p => (takeValue c p.2).map fun q =>
      (p.1.bind fun a => q.1.map fun b => (a, b), q.2) := by
    funext bs
    unfold takeValues
    cases takeValue c bs with
    | none => rfl
    | some p => simp only [Option.bind_some]; cases takeValue c p.2 <;> rfl
  rw [e]
  exact takesFront_bind (takeValue_front c) fun v => takesFront_map (takeValue_front c)
    fun v2 => v.bind fun a => v2.map fun b => (a, b)

theorem takeCount_front : TakesFront takeCount := takesFront_map (takeBytes_front _) _

theorem takePayloadBytes_front : TakesFront takePayloadBytes := by
  have e : takePayloadBytes = fun bs => (takeCount bs).bind fun p => (takeBytes p.1 p.2).map fun q => (.ok q.1, q.2) := by
    funext bs
    unfold takePayloadBytes
    cases takeCount bs <;> rfl
  rw [e]
  exact takesFront_bind takeCount_front fun n => takesFront_map (takeBytes_front n) _

theorem takePayloadBits_front : TakesFront takePayloadBits := by
  have e : takePayloadBits = fun bs => (takeCount bs).bind fun p => (takeBytes ((p.1 + 7) / 8) p.2).map fun q =>
      ((if ((bitsOf q.1).drop p.1).all (! ·) then .ok ((bitsOf q.1).take p.1) else .error .padBits :
        Except IllegalReason Bits), q.2) := by
    funext bs
    unfold takePayloadBits
    cases takeCount bs <;> rfl
  rw [e]
  exact takesFront_bind takeCount_front fun n => takesFront_map (takeBytes_front ((n + 7) / 8))
    fun w => (if ((bitsOf w).drop n).all (! ·) then .ok ((bitsOf w).take n) else .error .padBits :
      Except IllegalReason Bits)

theorem takeOperands_front (c : Config) (op : Op) (w : BitVec 8) : TakesFront (takeOperands c op w) := by
  cases op
  case init | dump | rdreg | wrctrl | rdbits | decue | decse => exact takesFront_done _
  case load | appbytes | epins => exact takesFront_map takePayloadBytes_front _
  case appbits | pack => exact takesFront_map takePayloadBits_front _
  case widths => exact takesFront_map (takeValues_front c) _
  all_goals exact takesFront_map (takeValue_front c) _

/-- A command, legal or not, is at least four bytes at the front of the input; the bytes behind it are left, and are
not looked at (R84). -/
theorem decode_takes_front {c : Config} {bs rest : Bytes} (h : (decode c bs).rest? = some rest) :
    ∃ taken, 4 ≤ taken.length ∧ bs = taken ++ rest ∧ ∀ r, (decode c (taken ++ r)).rest? = some r := by
  cases hw : takeBytes 4 bs with
  | none => simp [decode, hw, Decoded.rest?] at h
  | some p =>
    obtain ⟨w, r⟩ := p
    obtain ⟨hl, rfl⟩ := (takeBytes_eq_some_iff _ _ _ _).mp hw
    have key : ∃ mid, r = mid ++ rest ∧ ∀ r', (decode c (w ++ (mid ++ r'))).rest? = some r' := by
      rw [← beBytes_of_word hl] at h ⊢
      generalize BitVec.ofNat 32 (beVal w) = cw at h ⊢
      simp only [decode_word] at h ⊢
      cases hs : selectRow cw with
      | some row =>
        simp only [hs] at h ⊢
        unfold decodeRow at h
        split at h <;> simp only [Decoded.rest?, reduceCtorEq, Option.some.injEq] at h
        all_goals
          subst h
          obtain ⟨mid, e, hm⟩ := takeOperands_front _ _ _ _ _ _ ‹_›
          exact ⟨mid, e, fun r' => by simp only [decodeRow, hm, Decoded.rest?]⟩
      | none =>
        simp only [hs] at h ⊢
        unfold decodeIllegal at h
        split at h
        · rename_i ho
          simp only [Decoded.rest?, Option.some.injEq] at h
          exact ⟨[], by simp [h], fun r' => by simp only [decodeIllegal, ho, Decoded.rest?, List.nil_append]⟩
        · rename_i row ho
          split at h <;> simp only [Decoded.rest?, reduceCtorEq, Option.some.injEq] at h
          subst h
          obtain ⟨mid, e, hm⟩ := takeOperands_front _ _ _ _ _ _ ‹_›
          exact ⟨mid, e, fun r' => by simp only [decodeIllegal, ho, hm, Decoded.rest?]⟩
    obtain ⟨mid, rfl, hm⟩ := key
    exact ⟨w ++ mid, by simp [hl], by simp, fun r' => by rw [List.append_assoc]; exact hm r'⟩

/-! ### Operand bytes that say nothing legal -/

/-- Any bytes of a format's length are taken, whatever they say (R84). -/
theorem takeOperands_formatBytes {c : Config} {r : OpcodeRow} (hr : r ∈ opcodeTable) (w : BitVec 8) {bs : Bytes}
    (h : FormatBytes c r.format bs) (rest : Bytes) :
    ∃ x, takeOperands c r.op w (bs ++ rest) = some (x, rest) := by
  have val : ∀ l : Bytes, l.length = (c.valW + 7) / 8 → ∀ r, ∃ x, takeValue c (l ++ r) = some (x, r) := by
    intro l hl r
    exact ⟨_, by rw [takeValue, takeBytes_append (by simpa [Config.valBytes] using hl)]⟩
  have cnt : ∀ n < 2 ^ 32, ∀ r, takeCount (beBytes 4 n ++ r) = some (n, r) := fun n hn r => takeCount_append hn r
  have row : ∀ r ∈ opcodeTable, r.format = match r.op with
      | .load | .appbytes | .epins => .py
      | .appbits | .pack => .pb
      | .rdbytes | .encf | .encue | .encse | .widthu => .v
      | .widths => .vv
      | .init | .dump | .rdreg | .wrctrl | .rdbits | .decue | .decse => .z := by decide
  rw [row r hr] at h
  generalize r.op = op at h
  cases op <;> simp only [FormatBytes] at h
  case init | dump | rdreg | wrctrl | rdbits | decue | decse => subst h; exact ⟨_, rfl⟩
  case load | appbytes | epins =>
    obtain ⟨payload, hn, rfl⟩ := h
    exact ⟨_, by simp only [takeOperands, takePayloadBytes, List.append_assoc, cnt _ hn, takeBytes_append rfl]; rfl⟩
  case appbits | pack =>
    obtain ⟨n, payload, hn, hl, rfl⟩ := h
    exact ⟨_, by simp only [takeOperands, takePayloadBits, List.append_assoc, cnt _ hn, takeBytes_append hl]; rfl⟩
  case widths =>
    have hs : bs = bs.take ((c.valW + 7) / 8) ++ bs.drop ((c.valW + 7) / 8) := (List.take_append_drop _ _).symm
    obtain ⟨x, hx⟩ := val (bs.take ((c.valW + 7) / 8)) (by simp; omega) (bs.drop ((c.valW + 7) / 8) ++ rest)
    obtain ⟨y, hy⟩ := val (bs.drop ((c.valW + 7) / 8)) (by simp; omega) rest
    rw [hs, List.append_assoc]
    exact ⟨_, by simp only [takeOperands, takeValues, hx, hy]; rfl⟩
  all_goals
    obtain ⟨x, hx⟩ := val bs h rest
    exact ⟨_, by simp only [takeOperands, hx]; rfl⟩

theorem val_bitsOf (bytes : Bytes) : val (bitsOf bytes) = beVal bytes := by
  induction bytes with
  | nil => rfl
  | cons b bytes ih =>
    rw [bitsOf_cons, val_append, val_bitsOfByte, ih, bitsOf_length, pow_mul, beVal_cons]; norm_num

theorem pow_le_val {bits : Bits} {k : Nat} (h : bits[k]? = some true) : 2 ^ (bits.length - 1 - k) ≤ val bits := by
  induction bits generalizing k with
  | nil => simp at h
  | cons b bits ih =>
    rw [val_cons]
    cases k with
    | zero =>
      simp only [List.getElem?_cons_zero, Option.some.injEq] at h
      simp [h]
    | succ k =>
      have := ih (k := k) (by simpa using h)
      rw [List.length_cons, show bits.length + 1 - 1 - (k + 1) = bits.length - 1 - k by omega]
      omega

/-- A one among the unused high bits of a value word (R79, log 11). -/
theorem takeValue_highBits {c : Config} {word : Bytes} {k : Nat} (hl : word.length = (c.valW + 7) / 8)
    (hk : k + c.valW < 8 * word.length) (hb : (bitsOf word)[k]? = some true) (rest : Bytes) :
    takeValue c (word ++ rest) = some (.error .valueHighBits, rest) := by
  have h1 := pow_le_val hb
  rw [val_bitsOf, bitsOf_length] at h1
  have h2 : 2 ^ c.valW ≤ 2 ^ (8 * word.length - 1 - k) := Nat.pow_le_pow_right (by omega) (by omega)
  rw [takeValue, takeBytes_append (by simpa [Config.valBytes] using hl)]
  simp only [if_neg (show ¬ beVal word < 2 ^ c.valW by omega)]

/-- A step on bytes the decoder finds illegal (R84, R196). -/
theorem step_of_illegal {s : State} {why : IllegalReason} {rest : Bytes} (hr : s.resetRequest = false)
    (h : decode s.cfg s.input = .illegal why rest) :
    step s = .next (State.afterFatal { s with input := rest } .illegalCommand) := by
  have hne : s.input ≠ [] := by
    intro h0
    rw [h0] at h
    simp [decode, takeBytes] at h
  simp [step, fetch, hr, hne, h, execIllegal, takeFault_eq_afterFatal]

end Sys2Proof
end

