-- ==== Sys2Proof/Laws/Escape.lean ====
section
/-!
SUPPORT. The fold of EPINS (R141) against its one-counter form, its flags, and what the escaped form is like (R71).
-/
namespace Sys2Proof.Machine

/-- The count of zeros the two flags stand for (R141): `Z1 = (zc >= 1)`, `Z2 = (zc = 2)`. -/
def flagsOf (zc : Nat) : ZeroFlags := ⟨decide (1 ≤ zc), decide (zc = 2)⟩

/-- One step from the flags of a count. -/
theorem epStep_flagsOf {zc : Nat} (h : zc ≤ 2) (b : Byte) :
    epStep (flagsOf zc) b =
      if zc = 2 ∧ b.toNat ≤ 3 then (flagsOf (if b = 0#8 then 1 else 0), [0x03#8, b])
      else (flagsOf (if b = 0#8 then min (zc + 1) 2 else 0), [b]) := by
  interval_cases zc <;> by_cases hb : b = 0#8 <;> by_cases h3 : b.toNat ≤ 3 <;>
    simp_all [epStep, escapes, armZeros, flagsOf]

/-- The fold from the flags of a count emits the one-counter form (R141). -/
theorem epRun_flagsOf {zc : Nat} (h : zc ≤ 2) (bytes : Bytes) :
    (epRun (flagsOf zc) bytes).2 = counterEscape zc bytes ∧ ∃ z ≤ 2, (epRun (flagsOf zc) bytes).1 = flagsOf z := by
  induction bytes generalizing zc with
  | nil => exact ⟨rfl, zc, h, rfl⟩
  | cons b bytes ih =>
    rw [epRun, counterEscape, epStep_flagsOf h]
    by_cases he : zc = 2 ∧ b.toNat ≤ 3
    · simp only [if_pos he]
      have := ih (zc := if b = 0#8 then 1 else 0) (by split <;> omega)
      exact ⟨by rw [this.1]; simp, this.2⟩
    · simp only [if_neg he]
      have := ih (zc := if b = 0#8 then min (zc + 1) 2 else 0) (by split <;> omega)
      exact ⟨by rw [this.1], this.2⟩

theorem epRun_zero (bytes : Bytes) : (epRun ⟨false, false⟩ bytes).2 = counterEscape 0 bytes :=
  (epRun_flagsOf (zc := 0) (by omega) bytes).1

/-- The pair `(Z1, Z2) = (0, 1)` does not occur (R18, R141). -/
theorem epRun_zero_flags (bytes : Bytes) :
    (epRun ⟨false, false⟩ bytes).1.z2 = true → (epRun ⟨false, false⟩ bytes).1.z1 = true := by
  obtain ⟨z, hz, e⟩ := (epRun_flagsOf (zc := 0) (by omega) bytes).2
  have e' : (epRun ⟨false, false⟩ bytes).1 = flagsOf z := e
  rw [e']
  simp only [flagsOf, decide_eq_true_eq]
  omega

/-! ### The escaped form (R71) -/

/-- One step of the one-counter form. -/
theorem counterEscape_cons (zc : Nat) (b : Byte) (bytes : Bytes) :
    counterEscape zc (b :: bytes) =
      if zc = 2 ∧ b.toNat ≤ 3 then 0x03#8 :: b :: counterEscape (if b = 0#8 then 1 else 0) bytes
      else b :: counterEscape (if b = 0#8 then min (zc + 1) 2 else 0) bytes := by
  rw [counterEscape]
  by_cases h : zc = 2 ∧ b.toNat ≤ 3 <;> simp [h]

theorem startCodeFree_cons {x : Byte} {l : Bytes} (hl : StartCodeFree l)
    (hx : x = 0#8 → ∀ y, l[0]? = some 0#8 → l[1]? = some y → 3 ≤ y.toNat) : StartCodeFree (x :: l) := by
  intro k y h0 h1 h2
  cases k with
  | zero => exact hx (by simpa using h0) y (by simpa using h1) (by simpa using h2)
  | succ k => exact hl k y (by simpa using h0) (by simpa using h1) (by simpa using h2)

/-- The zeros just before and the escaped form hold no start code. -/
theorem startCodeFree_counterEscape {zc : Nat} (hz : zc ≤ 2) (bytes : Bytes) :
    StartCodeFree (List.replicate zc 0#8 ++ counterEscape zc bytes) := by
  induction bytes generalizing zc with
  | nil =>
    intro k b _ _ h2
    have hlt := (List.getElem?_eq_some_iff.mp h2).1
    simp [counterEscape] at hlt
    omega
  | cons b bytes ih =>
    rw [counterEscape_cons]
    by_cases he : zc = 2 ∧ b.toNat ≤ 3
    · obtain ⟨rfl, h3⟩ := he
      rw [if_pos ⟨rfl, h3⟩]
      have tail : StartCodeFree (b :: counterEscape (if b = 0#8 then 1 else 0) bytes) := by
        by_cases hb : b = 0#8
        · rw [if_pos hb, hb]; exact ih (zc := 1) (by omega)
        · rw [if_neg hb]; exact startCodeFree_cons (ih (zc := 0) (by omega)) fun h => absurd h hb
      refine startCodeFree_cons (startCodeFree_cons (startCodeFree_cons tail ?_) ?_) ?_
      · intro h; simp at h
      · intro _ y h; simp at h
      · intro _ y _ h1; simp at h1; subst h1; decide
    · rw [if_neg he]
      by_cases hb : b = 0#8
      · subst hb
        have hz' : zc < 2 := by by_contra h; exact he ⟨by omega, by decide⟩
        have e := ih (zc := zc + 1) (by omega)
        rw [if_pos rfl, Nat.min_eq_left (by omega)]
        rwa [List.replicate_succ', List.append_assoc, List.singleton_append] at e
      · rw [if_neg hb]
        have tail := startCodeFree_cons (x := b) (ih (zc := 0) (by omega)) fun h => absurd h hb
        rw [List.replicate_zero, List.nil_append] at tail
        interval_cases zc
        · exact tail
        · exact startCodeFree_cons tail fun _ y h => absurd (by simpa using h) hb
        · refine startCodeFree_cons (startCodeFree_cons tail fun _ y h => absurd (by simpa using h) hb) ?_
          intro _ y _ h1
          simp at h1
          subst h1
          by_contra h
          exact he ⟨rfl, by omega⟩

/-- Removing the escapes gives back the input, from any run of zeros that agrees with the counter. -/
theorem unescape_counterEscape {zc run : Nat} (h : zc = min run 2) (bytes : Bytes) :
    unescapeFrom run (counterEscape zc bytes) = bytes := by
  induction bytes generalizing zc run with
  | nil => rfl
  | cons b bytes ih =>
    rw [counterEscape_cons]
    by_cases he : zc = 2 ∧ b.toNat ≤ 3
    · rw [if_pos he, unescapeFrom, if_pos ⟨by omega, rfl⟩, unescapeFrom, if_neg (by omega)]
      rw [ih (by split <;> simp)]
    · rw [if_neg he, unescapeFrom, if_neg]
      · rw [ih (by split <;> omega)]
      · rintro ⟨h1, rfl⟩
        exact he ⟨by omega, by decide⟩

/-- The length of the escaped form (R71 item 4). -/
theorem counterEscape_length {zc : Nat} (hz : zc ≤ 2) (bytes : Bytes) :
    bytes.length ≤ (counterEscape zc bytes).length ∧
      (counterEscape zc bytes).length ≤ bytes.length + (bytes.length + zc - 1) / 2 := by
  induction bytes generalizing zc with
  | nil => simp [counterEscape]
  | cons b bytes ih =>
    rw [counterEscape_cons]
    by_cases he : zc = 2 ∧ b.toNat ≤ 3
    · rw [if_pos he]
      simp only [List.length_cons]
      split
      · have := ih (zc := 1) (by omega); omega
      · have := ih (zc := 0) (by omega); omega
    · rw [if_neg he]
      simp only [List.length_cons]
      split
      · have := ih (zc := min (zc + 1) 2) (by omega); omega
      · have := ih (zc := 0) (by omega); omega

/-- A run of zeros reaches the bound (R71 item 4). -/
theorem counterEscape_zeros_length {zc : Nat} (hz : zc ≤ 2) (n : Nat) :
    (counterEscape zc (List.replicate n 0#8)).length = n + (n + zc - 1) / 2 := by
  induction n generalizing zc with
  | zero => simp [counterEscape]; omega
  | succ n ih =>
    rw [List.replicate_succ, counterEscape_cons]
    by_cases he : zc = 2
    · have e := ih (zc := 1) (by omega)
      simp [he, e]; omega
    · have e := ih (zc := zc + 1) (by omega)
      rw [if_neg (by simp [he]), if_pos rfl, Nat.min_eq_left (by omega), List.length_cons, e]; omega

/-- In a run of zeros an escape stands in front of every second zero from the third on (R142). -/
theorem counterEscape_zeros (m : Nat) (bytes : Bytes) :
    counterEscape 2 (List.replicate (2 * m) 0#8 ++ bytes) =
      (List.replicate m [0x03#8, 0x00#8, 0x00#8]).flatten ++ counterEscape 2 bytes := by
  induction m with
  | zero => simp
  | succ m ih =>
    rw [Nat.mul_succ, Nat.add_comm, List.replicate_add, List.append_assoc]
    simp only [List.replicate_succ, List.replicate_zero, List.cons_append, List.nil_append, List.flatten_cons]
    rw [counterEscape_cons, if_pos ⟨rfl, by decide⟩, if_pos rfl, counterEscape_cons, if_neg (by omega), if_pos rfl]
    simp [ih]

end Sys2Proof.Machine
end

