-- ==== Sys2Proof/Laws/Packer.lean ====
section
/-!
SUPPORT. The fold of PACK (R131) makes the byte layout of R60.
-/
namespace Sys2Proof.Machine

/-- One step of the packer with the bits gathered so far in the accumulator. -/
theorem packStep_eq {h : Bits} (hl : h.length < 8) (b : Bool) :
    packStep ⟨byteOfBits h, Fin.ofNat 8 h.length⟩ b =
      if h.length = 7 then (⟨0#8, 0⟩, [byteOfBits (h ++ [b])])
      else (⟨byteOfBits (h ++ [b]), Fin.ofNat 8 (h.length + 1)⟩, []) := by
  have hv : (Fin.ofNat 8 h.length).val = h.length := by simp [Fin.ofNat]; omega
  unfold packStep
  simp only [hv, byteOfBits_or_bit hl]
  split
  · rfl
  · congr 2
    apply Fin.ext
    simp [Fin.ofNat, Fin.val_add]

/-- From the bits gathered so far, a PACK emits the layout of those and the bits to come, and ends empty (R130, R131). -/
theorem packRun_eq {h : Bits} (hl : h.length < 8) (bits : Bits) :
    packRun ⟨byteOfBits h, Fin.ofNat 8 h.length⟩ bits = (⟨0#8, 0⟩, bytesOf (h ++ bits)) := by
  have zero : (⟨byteOfBits [], Fin.ofNat 8 0⟩ : PackAcc) = ⟨0#8, 0⟩ := by decide
  induction bits generalizing h with
  | nil =>
    have hv : (Fin.ofNat 8 h.length).val = h.length := by simp [Fin.ofNat]; omega
    rw [packRun, packFlush, List.append_nil]
    simp only [hv]
    by_cases h0 : h = []
    · subst h0; simpa using zero
    · have : h.length ≠ 0 := fun e => h0 (List.length_eq_zero_iff.mp e)
      rw [if_pos this, bytesOf_short h h0 hl]
  | cons b bits ih =>
    rw [packRun, packStep_eq hl]
    split
    · rename_i h7
      have e := ih (h := []) (by simp)
      rw [List.length_nil, zero, List.nil_append] at e
      simp only [e]
      rw [show h ++ b :: bits = (h ++ [b]) ++ bits by simp, bytesOf_eight (h ++ [b]) bits (by simp [h7])]
      rfl
    · rename_i h7
      have e := ih (h := h ++ [b]) (by simp; omega)
      simp only [List.length_append, List.length_cons, List.length_nil, Nat.zero_add, List.append_assoc,
        List.singleton_append] at e
      simp only [e, List.nil_append]

/-- PACK from an empty accumulator (R130). -/
theorem packRun_zero (bits : Bits) : packRun ⟨0#8, 0⟩ bits = (⟨0#8, 0⟩, bytesOf bits) := by
  have e := packRun_eq (h := []) (by simp) bits
  have zero : (⟨byteOfBits [], Fin.ofNat 8 0⟩ : PackAcc) = ⟨0#8, 0⟩ := by decide
  rwa [List.length_nil, zero, List.nil_append] at e

/-- Byte `j` of the layout spells bits `8j` to `8j+7`, zeros after the last bit (R130). -/
theorem bytesOf_eq_groups (bits : Bits) :
    bytesOf bits = (List.range ((bits.length + 7) / 8)).map fun j =>
      BitVec.ofNat 8 (val (((bits ++ zeros (8 * ((bits.length + 7) / 8) - bits.length)).drop (8 * j)).take 8)) := by
  rw [← bitsOf_bytesOf]
  have len : ((bits.length + 7) / 8) = (bytesOf bits).length := by simp
  rw [len]
  generalize bytesOf bits = bytes
  induction bytes with
  | nil => rfl
  | cons b bytes ih =>
    rw [List.length_cons, List.range_succ_eq_map, List.map_cons, List.map_map]
    refine congrArg₂ List.cons ?_ ?_
    · simp
    · conv_lhs => rw [ih]
      apply List.map_congr_left
      intro j _
      simp only [Function.comp_def, bitsOf_cons]
      rw [show 8 * (j + 1) = (bitsOfByte b).length + 8 * j by simp; ring, ← List.drop_drop, List.drop_left]

end Sys2Proof.Machine
end

