-- ==== Sys2Proof/Laws/Exec.lean ====
section
/-!
SUPPORT. What a command can do, said once: every command is the envelope of R155 around its operation, and an operation
that does not raise a fatal fault writes only what `Effect` lists.
-/
namespace Sys2Proof.Machine

/-- The operation of a command (R155 step 3). -/
def opEndOf (i : Instr) (s : State) : OpEnd :=
  match i with
  | .init => opInit s
  | .load bytes => opLoad bytes s
  | .dump => opDump s
  | .rdreg r => opRdreg r s
  | .wrctrl c => opWrctrl c s
  | .appbytes bytes => opAppbytes bytes s
  | .appbits bits => opAppbits bits s
  | .rdbytes n => opRdbytes n s
  | .rdbits n => opRdbits n s
  | .encf width value => opEncf width value s
  | .encue value => opEncue value s
  | .encse value => opEncse value s
  | .decue => opDecue s
  | .decse => opDecse s
  | .widthu hi => opWidthu hi s
  | .widths lo hi => opWidths lo hi s
  | .pack bits => opPack bits s
  | .epins bytes => opEpins bytes s

/-- Every command is the envelope around its operation. -/
theorem exec_eq (i : Instr) (s : State) : exec i s = execute i.op s (opEndOf i s) := by cases i <;> rfl

/-- A command executed with `FAULT = 0` ends as its operation ends. -/
theorem exec_served {i : Instr} {s : State} (h : s.status.fault = false) : exec i s = finish s (opEndOf i s) := by
  rw [exec_eq, execute_served (.inl h)]

/-- The operation ends in this state, without a fatal fault. -/
def OpEnd.EndsIn (e : OpEnd) (u : State) : Prop :=
  (∃ r, e = .ok u r) ∨ (∃ r, e = .warning u r) ∨ ∃ g, e = .signal u g

/-- What an operation leaves in the cursor: as it was, a new session (INIT, LOAD), the read pointer moved over unread
bits (the bit reads), or over a byte run (RDBYTES), or data at the end (APPBYTES, APPBITS). -/
def CursorEffect (i : Instr) (s : State) (c : Cursor) : Prop :=
  c = s.cursor ∨
  (i.op = .init ∧ c = ⟨⟨[]⟩, 0, 0, 0⟩) ∨
  (∃ bytes, i = .load bytes ∧ Config.exceedsCap s.cfg bytes.length = false ∧ c = ⟨⟨bytes⟩, 0, 0, 0⟩) ∨
  ((i.op = .rdbits ∨ i.op = .decue ∨ i.op = .decse) ∧
    ∃ n ≤ s.cursor.unread.length, c = s.cursor.atPos (s.cursor.readPos + n)) ∨
  (∃ n, i = .rdbytes n ∧
    (c = s.cursor.alignRead ∨
      (s.cursor.alignRead.runExhausted s.cfg.rbTail n = false ∧
        c = s.cursor.alignRead.skipRun s.cfg.rbTail n))) ∨
  (∃ bytes, i = .appbytes bytes ∧
    Config.exceedsCap s.cfg (s.cursor.contents.len + bytes.length) = false ∧
    c = { s.cursor with wbit := 0, contents := s.cursor.contents.append bytes }) ∨
  (∃ bits, i = .appbits bits ∧
    Config.exceedsCap s.cfg (s.cursor.contents.len + s.cursor.newBytes bits.length) = false ∧
    c = bits.foldl Cursor.appendBit s.cursor)

/-- What an operation leaves in the rest of the state. -/
structure Effect (i : Instr) (s u : State) : Prop where
  host : u.cfg = s.cfg ∧ u.input = s.input ∧ u.resetRequest = s.resetRequest ∧ u.responses = s.responses ∧ u.pc = s.pc
  ctrl : u.ctrl = s.ctrl ∨ ∃ w, i = .wrctrl w
  status : u.status = s.status ∨ u.status = s.status.withOverflow ∨
    ((i.op = .init ∨ i.op = .load) ∧ u.status = s.status.newSession)
  ep : u.ep = s.ep ∨ (u.ep.z2 = true → u.ep.z1 = true)
  rp : u.rp = s.rp ∨ u.rp = ⟨0#8, 0⟩
  cursor : CursorEffect i s u.cursor

/-- The bit reads only move the read pointer. -/
theorem effect_of_read {i : Instr} {s : State} (hi : i.op = .rdbits ∨ i.op = .decue ∨ i.op = .decse) {n : Nat}
    (hn : n ≤ s.cursor.unread.length) : Effect i s { s with cursor := s.cursor.atPos (s.cursor.readPos + n) } :=
  { host := ⟨rfl, rfl, rfl, rfl, rfl⟩, ctrl := .inl rfl, status := .inl rfl, ep := .inl rfl, rp := .inl rfl
    cursor := .inr (.inr (.inr (.inl ⟨hi, n, hn, rfl⟩))) }

theorem effect_refl (i : Instr) (s : State) : Effect i s s :=
  { host := ⟨rfl, rfl, rfl, rfl, rfl⟩, ctrl := .inl rfl, status := .inl rfl, ep := .inl rfl, rp := .inl rfl
    cursor := .inl rfl }

theorem effect_of_cursor {i : Instr} {s : State} {c : Cursor} (h : CursorEffect i s c) :
    Effect i s { s with cursor := c } :=
  { host := ⟨rfl, rfl, rfl, rfl, rfl⟩, ctrl := .inl rfl, status := .inl rfl, ep := .inl rfl, rp := .inl rfl
    cursor := h }

/-- Everything an operation can leave behind. -/
theorem opEnd_effect {i : Instr} {s u : State} (h : (opEndOf i s).EndsIn u) : Effect i s u := by
  cases i with
  | init =>
    simp [OpEnd.EndsIn, opEndOf, opInit] at h
    subst h
    exact { host := ⟨rfl, rfl, rfl, rfl, rfl⟩, ctrl := .inl rfl, status := .inr (.inr ⟨.inl rfl, rfl⟩)
            ep := .inr (by simp), rp := .inr rfl, cursor := .inr (.inl ⟨rfl, rfl⟩) }
  | load bytes =>
    simp only [OpEnd.EndsIn, opEndOf, opLoad] at h
    split at h <;> simp at h
    rename_i hc
    subst h
    exact { host := ⟨rfl, rfl, rfl, rfl, rfl⟩, ctrl := .inl rfl, status := .inr (.inr ⟨.inr rfl, rfl⟩), ep := .inl rfl
            rp := .inl rfl, cursor := .inr (.inr (.inl ⟨bytes, rfl, by simpa using hc, rfl⟩)) }
  | dump =>
    simp only [OpEnd.EndsIn, opEndOf, opDump] at h
    split at h <;> simp at h
    subst h; exact effect_refl _ _
  | rdreg r =>
    simp only [OpEnd.EndsIn, opEndOf, opRdreg] at h
    split at h
    · simp at h
    · split at h <;> simp at h
      subst h; exact effect_refl _ _
  | wrctrl w =>
    simp only [OpEnd.EndsIn, opEndOf, opWrctrl] at h
    split at h <;> simp at h
    subst h
    exact { host := ⟨rfl, rfl, rfl, rfl, rfl⟩, ctrl := .inr ⟨w, rfl⟩, status := .inl rfl, ep := .inl rfl
            rp := .inl rfl, cursor := .inl rfl }
  | appbytes bytes =>
    simp only [OpEnd.EndsIn, opEndOf, opAppbytes] at h
    split at h <;> simp at h
    rename_i hc
    subst h
    exact effect_of_cursor (.inr (.inr (.inr (.inr (.inr (.inl ⟨bytes, rfl, by simpa using hc, rfl⟩))))))
  | appbits bits =>
    simp only [OpEnd.EndsIn, opEndOf, opAppbits] at h
    split at h <;> simp at h
    rename_i hc
    subst h
    exact effect_of_cursor (.inr (.inr (.inr (.inr (.inr (.inr ⟨bits, rfl, by simpa using hc, rfl⟩))))))
  | rdbytes n =>
    simp only [OpEnd.EndsIn, opEndOf, opRdbytes] at h
    split at h
    · simp at h
      subst h
      exact effect_of_cursor (.inr (.inr (.inr (.inr (.inl ⟨n, rfl, .inl rfl⟩)))))
    · rename_i hx
      split at h <;> simp at h
      subst h
      exact effect_of_cursor (.inr (.inr (.inr (.inr (.inl ⟨n, rfl, .inr ⟨by simpa using hx, rfl⟩⟩)))))
  | rdbits n =>
    simp only [OpEnd.EndsIn, opEndOf, opRdbits, readBits_eq] at h
    split at h
    · simp at h
    · split at h <;> rename_i heq <;> split at heq <;> simp at heq <;> simp at h
      · rename_i hn
        subst h
        rw [← heq.2]
        exact effect_of_read (.inl rfl) hn
      · subst h
        rw [← heq]
        exact effect_of_read (.inl rfl) le_rfl
  | encf width value =>
    simp only [OpEnd.EndsIn, opEndOf, opEncf] at h
    split at h
    · simp at h
    · split at h
      · simp at h; subst h; exact effect_refl _ _
      · split at h <;> simp at h
        subst h
        exact { host := ⟨rfl, rfl, rfl, rfl, rfl⟩, ctrl := .inl rfl, status := .inr (.inl rfl), ep := .inl rfl
                rp := .inl rfl, cursor := .inl rfl }
  | encue value =>
    simp [OpEnd.EndsIn, opEndOf, opEncue] at h
    subst h; exact effect_refl _ _
  | encse value =>
    simp [OpEnd.EndsIn, opEndOf, opEncse] at h
    subst h; exact effect_refl _ _
  | decue =>
    simp only [OpEnd.EndsIn, opEndOf, opDecue] at h
    obtain ⟨n, hn, e | e | ⟨k, e⟩⟩ := decodeCodeNum_moves s.cfg.lzMax s.cursor <;> simp only [e] at h
    · simp at h; subst h; exact effect_of_read (.inr (.inl rfl)) hn
    · simp at h; subst h; exact effect_of_read (.inr (.inl rfl)) hn
    · split at h <;> simp at h <;> subst h <;> exact effect_of_read (.inr (.inl rfl)) hn
  | decse =>
    simp only [OpEnd.EndsIn, opEndOf, opDecse] at h
    obtain ⟨n, hn, e | e | ⟨k, e⟩⟩ := decodeCodeNum_moves s.cfg.lzMax s.cursor <;> simp only [e] at h
    · simp at h; subst h; exact effect_of_read (.inr (.inr rfl)) hn
    · simp at h; subst h; exact effect_of_read (.inr (.inr rfl)) hn
    · split at h <;> simp at h <;> subst h <;> exact effect_of_read (.inr (.inr rfl)) hn
  | widthu hi =>
    simp [OpEnd.EndsIn, opEndOf, opWidthu] at h
    subst h; exact effect_refl _ _
  | widths lo hi =>
    simp only [OpEnd.EndsIn, opEndOf, opWidths] at h
    split at h
    · simp at h
    · split at h <;> simp at h <;> subst h <;> exact effect_refl _ _
  | pack bits =>
    simp [OpEnd.EndsIn, opEndOf, opPack] at h
    subst h
    exact { host := ⟨rfl, rfl, rfl, rfl, rfl⟩, ctrl := .inl rfl, status := .inl rfl, ep := .inl rfl
            rp := .inr (by rw [packRun_zero]), cursor := .inl rfl }
  | epins bytes =>
    simp only [OpEnd.EndsIn, opEndOf, opEpins] at h
    split at h <;> simp at h
    subst h
    exact { host := ⟨rfl, rfl, rfl, rfl, rfl⟩, ctrl := .inl rfl, status := .inl rfl, ep := .inr (epRun_zero_flags bytes)
            rp := .inl rfl, cursor := .inl rfl }

/-- What a command that has a next state does: the fault state turns it away, or its operation takes effect and the
command is answered, or it takes a fatal fault. -/
theorem exec_cases {i : Instr} {s t : State} (h : exec i s = .next t) :
    (s.status.fault = true ∧ servedInFault i.op = false ∧ t = s.after .faulted .none) ∨
    ((s.status.fault = false ∨ servedInFault i.op = true) ∧
      ((∃ u code r, Effect i s u ∧ (r ≠ .none → code = .ok ∨ code = .overflowWarning) ∧ t = u.after code r) ∨
        ∃ f, t = s.afterFatal f)) := by
  rw [exec_eq] at h
  rcases execute_cases h with h | ⟨hs, h⟩
  · exact .inl h
  · refine .inr ⟨hs, ?_⟩
    rcases h with ⟨u, r, e, rfl⟩ | ⟨u, r, e, rfl⟩ | ⟨u, g, e, rfl⟩ | ⟨f, -, rfl⟩
    · exact .inl ⟨u, _, r, opEnd_effect (.inl ⟨r, e⟩), fun _ => .inl rfl, rfl⟩
    · exact .inl ⟨u, _, r, opEnd_effect (.inr (.inl ⟨r, e⟩)), fun _ => .inr rfl, rfl⟩
    · exact .inl ⟨u, _, .none, opEnd_effect (.inr (.inr ⟨g, e⟩)), by simp, rfl⟩
    · exact .inr ⟨f, rfl⟩

/-- What a step that has a next state is: a reset, a command, or an illegal command taken and discarded. -/
theorem step_cases {s t : State} (h : step s = .next t) :
    (s.resetRequest = true ∧ t = resetBlock s) ∨
    (s.resetRequest = false ∧ ∃ i rest, decode s.cfg s.input = .command i rest ∧
      exec i { s with input := rest } = .next t) ∨
    (s.resetRequest = false ∧ ∃ why rest, decode s.cfg s.input = .illegal why rest ∧
      t = State.afterFatal { s with input := rest } .illegalCommand) := by
  unfold step fetch at h
  cases hr : s.resetRequest with
  | true =>
    simp only [hr, if_true, Host.Outcome.next.injEq] at h
    exact .inl ⟨rfl, h.symm⟩
  | false =>
    refine .inr ?_
    by_cases hi : s.input = []
    · simp [hr, hi] at h
    · cases hd : decode s.cfg s.input with
      | command i rest =>
        simp only [hr, hi, hd, Bool.false_eq_true, if_false] at h
        exact .inl ⟨rfl, i, rest, rfl, h⟩
      | illegal why rest =>
        simp only [hr, hi, hd, Bool.false_eq_true, if_false, Host.Outcome.next.injEq] at h
        exact .inr ⟨rfl, why, rest, rfl, h.symm⟩
      | incomplete => simp [hr, hi, hd] at h

end Sys2Proof.Machine
end

