-- ==== Sys2Proof/Laws/PerInstr.lean ====
section
/-!
SUPPORT. Statements about every command as syntax, one lemma per constructor.
-/
namespace Sys2Proof.Laws.EncodedLength

open Sys2Proof Sys2Proof.Machine

/-- The encoder gives a command the length its format has (R84). -/
def Statement (i : Instr) : Prop := ∀ c : Config, (encode c i).length = commandLength c i

theorem all (i : Instr) : Statement i := by
  intro c
  cases i <;>
    simp [encode, commandLength, valueBytes, signedBytes, payloadBytes, payloadBits, Config.valBytes, cntW] <;> omega

theorem init : Statement .init := all _

theorem load (bytes : Bytes) : Statement (.load bytes) := all _

theorem dump : Statement .dump := all _

theorem rdreg (r : BitVec 8) : Statement (.rdreg r) := all _

theorem wrctrl (c : BitVec 8) : Statement (.wrctrl c) := all _

theorem appbytes (bytes : Bytes) : Statement (.appbytes bytes) := all _

theorem appbits (bits : Bits) : Statement (.appbits bits) := all _

theorem rdbytes (n : Nat) : Statement (.rdbytes n) := all _

theorem rdbits (n : BitVec 8) : Statement (.rdbits n) := all _

theorem encf (width : BitVec 8) (value : Nat) : Statement (.encf width value) := all _

theorem encue (value : Nat) : Statement (.encue value) := all _

theorem encse (value : Int) : Statement (.encse value) := all _

theorem decue : Statement .decue := all _

theorem decse : Statement .decse := all _

theorem widthu (hi : Nat) : Statement (.widthu hi) := all _

theorem widths (lo hi : Int) : Statement (.widths lo hi) := all _

theorem pack (bits : Bits) : Statement (.pack bits) := all _

theorem epins (bytes : Bytes) : Statement (.epins bytes) := all _

end Sys2Proof.Laws.EncodedLength
end

