-- ==== Sys2Proof/Machine/Assembly.lean ====
section
/-!
DEFINITION. The textual form of a command (30_encoding.md R85), as the characters of its line: the mnemonic, the
operands in R85's order, and the host buffer that takes the result. Of the spellings R85 allows it writes one: decimal
integers, and payloads as one quoted literal.
-/
namespace Sys2Proof.Machine

/-- The mnemonic (R82, R85). -/
def mnemonicText : Op → List Char
  | .init => "INIT".toList
  | .load => "LOAD".toList
  | .dump => "DUMP".toList
  | .rdreg => "RDREG".toList
  | .wrctrl => "WRCTRL".toList
  | .appbytes => "APPBYTES".toList
  | .appbits => "APPBITS".toList
  | .rdbytes => "RDBYTES".toList
  | .rdbits => "RDBITS".toList
  | .encf => "ENCF".toList
  | .encue => "ENCUE".toList
  | .encse => "ENCSE".toList
  | .decue => "DECUE".toList
  | .decse => "DECSE".toList
  | .widthu => "WIDTHU".toList
  | .widths => "WIDTHS".toList
  | .pack => "PACK".toList
  | .epins => "EPINS".toList

/-- A natural number in decimal. -/
def natText (n : Nat) : List Char := Nat.toDigits 10 n

/-- An integer in decimal. -/
def intText (v : Int) : List Char := if v < 0 then '-' :: natText v.natAbs else natText v.natAbs

/-- A bit payload: a quoted string of `0` and `1`. -/
def bitsText (bits : Bits) : List Char := '\'' :: bits.map (fun b => if b then '1' else '0') ++ ['\'']

/-- A byte as a hexadecimal pair. -/
def byteText (b : Byte) : List Char := [Nat.digitChar (b.toNat / 16), Nat.digitChar (b.toNat % 16)]

/-- A byte payload: hexadecimal pairs separated by blanks. -/
def bytesText (bytes : Bytes) : List Char :=
  ['x', '\''] ++ ((bytes.map byteText).intersperse [' ']).flatten ++ ['\'']

/-- The operands in R85's order. -/
def operandTexts : Instr → List (List Char)
  | .init | .dump | .decue | .decse => []
  | .load bytes | .appbytes bytes | .epins bytes => [bytesText bytes]
  | .appbits bits | .pack bits => [bitsText bits]
  | .rdreg r => [natText r.toNat]
  | .wrctrl c => [natText c.toNat]
  | .rdbytes n => [natText n]
  | .rdbits n => [natText n.toNat]
  | .encf width value => [natText value, natText width.toNat]
  | .encue value => [natText value]
  | .encse value => [intText value]
  | .widthu hi => [natText hi]
  | .widths lo hi => [intText lo, intText hi]

/-- The line of a command; `dest` names the host buffer that takes the result, if any. -/
def instrText (i : Instr) (dest : Option (List Char)) : List Char :=
  mnemonicText i.op ++
    (match operandTexts i with
    | [] => []
    | ops => ' ' :: (ops.intersperse [',', ' ']).flatten) ++
    (match dest with
    | none => []
    | some name => " -> $".toList ++ name)

end Sys2Proof.Machine
end

