-- ==== Sys2Proof/Tests/Slice0.lean ====
section
/-!
SUPPORT. Tests: what WellFormed refuses; the decoding of command words written out from the spec's encodings
(30_encoding.md R77 to R82, 95_test_vectors.md section 2); single commands with the results of 95_test_vectors.md
sections 1 and 3 or hand calculation from the rules; and for every statement with hypotheses a state and operands that
meet them.
-/
namespace Sys2Proof.Tests

open Sys2Proof Sys2Proof.Machine

/-! ### Helpers -/

/-- The reset state with a cursor. -/
def at_ (bytes : Bytes) (rbyte : Nat) (rbit wbit : Fin 8) : State :=
  { State.reset with cursor := ⟨⟨bytes⟩, rbyte, rbit, wbit⟩ }

/-- The same with a capacity. -/
def capped (cap : Nat) (s : State) : State := { s with cfg := { s.cfg with cap := some cap } }

/-- The same with another `RB_TAIL`. -/
def tailed (tail : RbTail) (s : State) : State := { s with cfg := { s.cfg with rbTail := tail } }

/-- The same with `STRICT = 0`. -/
def lax (s : State) : State := { s with ctrl := ⟨false⟩ }

/-- The same with the session over after an illegal command. -/
def faulted (s : State) : State := { s with status := ⟨true, false, .illegalCommand, .illegalCommand⟩ }

/-- The same with bytes presented. -/
def presented (bytes : Bytes) (s : State) : State := { s with input := bytes }

/-- The state of an outcome. -/
def stateOf (o : Outcome) : Option State :=
  match o with
  | .next t => some t
  | .fault _ => none
  | .refused _ => none

/-- The status and result of a command, and the cursor it leaves. -/
def shown (o : Outcome) : Option (StatusCode × Result × Cursor) :=
  (stateOf o).map fun t => (t.status.last, t.lastResult, t.cursor)

/-- The status and result of a command. -/
def answerOf (o : Outcome) : Option (StatusCode × Result) :=
  (stateOf o).map fun t => (t.status.last, t.lastResult)

/-! ### WellFormed refuses what cannot be presented -/

theorem test_wf_cfg_narrow : (Config.mk 31 none .clamp true).wf = false := by decide

theorem test_wf_cfg_wide : (Config.mk 256 none .clamp true).wf = false := by decide

theorem test_wf_cfg_defaults : Config.defaults.wf = true := by decide

theorem test_wf_count : countFits (2 ^ 32) = false ∧ countFits (2 ^ 32 - 1) = true := by decide

theorem test_wf_payloads (bytes : Bytes) (bits : Bits) (h : bytes.length = 2 ^ 32) (h' : bits.length = 2 ^ 32) :
    (Instr.load bytes).wf Config.defaults = false ∧ (Instr.appbytes bytes).wf Config.defaults = false ∧
    (Instr.epins bytes).wf Config.defaults = false ∧ (Instr.appbits bits).wf Config.defaults = false ∧
    (Instr.pack bits).wf Config.defaults = false := by
  simp only [Instr.wf, h, h', test_wf_count.1, and_self]

theorem test_wf_unsigned :
    (Instr.rdbytes (2 ^ 64)).wf Config.defaults = false ∧ (Instr.encf 8#8 (2 ^ 64)).wf Config.defaults = false ∧
    (Instr.encue (2 ^ 64)).wf Config.defaults = false ∧ (Instr.widthu (2 ^ 64)).wf Config.defaults = false := by decide

theorem test_wf_signed :
    (Instr.encse (2 ^ 63)).wf Config.defaults = false ∧ (Instr.encse (-2 ^ 63 - 1)).wf Config.defaults = false ∧
    (Instr.widths (-2 ^ 63 - 1) 0).wf Config.defaults = false ∧
    (Instr.widths 0 (2 ^ 63)).wf Config.defaults = false := by decide

/-! ### Decoding words written out from the encodings -/

theorem test_decode_init : decode Config.defaults [0x01, 0, 0, 0] = .command .init [] := by decide

theorem test_decode_load :
    decode Config.defaults [0x02, 0, 0, 0, 0, 0, 0, 2, 0xA0, 0xB1, 0x77] = .command (.load [0xA0, 0xB1]) [0x77] := by decide

theorem test_decode_dump : decode Config.defaults [0x03, 0, 0, 0] = .command .dump [] := by decide

theorem test_decode_rdreg : decode Config.defaults [0x04, 5, 0, 0] = .command (.rdreg 5#8) [] := by decide

theorem test_decode_wrctrl : decode Config.defaults [0x05, 1, 0, 0] = .command (.wrctrl 1#8) [] := by decide

theorem test_decode_appbytes : decode Config.defaults [0x10, 0, 0, 0, 0, 0, 0, 0] = .command (.appbytes []) [] := by decide

theorem test_decode_appbits :
    decode Config.defaults [0x11, 0, 0, 0, 0, 0, 0, 5, 0xB8] = .command (.appbits [true, false, true, true, true]) [] := by
  decide

theorem test_decode_rdbytes :
    decode Config.defaults [0x12, 0, 0, 0, 0, 0, 0, 0, 0, 0, 1, 2] = .command (.rdbytes 258) [] := by decide

theorem test_decode_rdbits : decode Config.defaults [0x13, 3, 0, 0] = .command (.rdbits 3#8) [] := by decide

theorem test_decode_encf :
    decode Config.defaults [0x20, 8, 0, 0, 0, 0, 0, 0, 0, 0, 0, 0x42] = .command (.encf 8#8 66) [] := by decide

theorem test_decode_encue :
    decode Config.defaults [0x21, 0, 0, 0, 0xFF, 0xFF, 0xFF, 0xFF, 0xFF, 0xFF, 0xFF, 0xFF] =
      .command (.encue (2 ^ 64 - 1)) [] := by decide

theorem test_decode_encse :
    decode Config.defaults [0x22, 0, 0, 0, 0xFF, 0xFF, 0xFF, 0xFF, 0xFF, 0xFF, 0xFF, 0xFE] =
      .command (.encse (-2)) [] := by decide

theorem test_decode_decue : decode Config.defaults [0x23, 0, 0, 0] = .command .decue [] := by decide

theorem test_decode_decse : decode Config.defaults [0x24, 0, 0, 0] = .command .decse [] := by decide

theorem test_decode_widthu :
    decode Config.defaults [0x25, 0, 0, 0, 0, 0, 0, 0, 0, 0, 0, 5] = .command (.widthu 5) [] := by decide

theorem test_decode_widths :
    decode Config.defaults
      [0x26, 0, 0, 0, 0xFF, 0xFF, 0xFF, 0xFF, 0xFF, 0xFF, 0xFF, 0xF8, 0, 0, 0, 0, 0, 0, 0, 8] =
      .command (.widths (-8) 8) [] := by decide

theorem test_decode_pack :
    decode Config.defaults [0x30, 0, 0, 0, 0, 0, 0, 0x0A, 0xF0, 0x80] =
      .command (.pack [true, true, true, true, false, false, false, false, true, false]) [] := by decide

theorem test_decode_epins :
    decode Config.defaults [0x40, 0, 0, 0, 0, 0, 0, 3, 0, 0, 1] = .command (.epins [0, 0, 1]) [] := by decide

theorem test_decode_reserved : decode Config.defaults [0x01, 0, 0, 1] = .illegal .reservedNotZero [] := by decide

theorem test_decode_unused_w :
    decode Config.defaults [0x21, 1, 0, 0, 0, 0, 0, 0, 0, 0, 0, 0, 0x99] = .illegal .unusedWNotZero [0x99] := by decide

theorem test_decode_unassigned : decode Config.defaults [0, 0, 0, 0, 0x01] = .illegal .unassignedOpcode [0x01] := by decide

theorem test_decode_pad_bits :
    decode Config.defaults [0x30, 0, 0, 0, 0, 0, 0, 5, 0xB9] = .illegal .padBits [] := by decide

theorem test_decode_value_high_bits :
    decode { Config.defaults with valW := 33 } [0x21, 0, 0, 0, 2, 0, 0, 0, 0] = .illegal .valueHighBits [] := by decide

theorem test_decode_incomplete : decode Config.defaults [0x21, 0, 0, 0, 0] = .incomplete := by decide

/-! ### The host's questions: a table word decodes, and runs as the first instruction -/

theorem test_table_word_rdreg : decodeTableWord 32 0x04050000 = some (.rdreg 5#8) := by decide

theorem test_table_word_widths : decodeTableWord 32 0x26000000 = some (.widths 0 0) := by decide

theorem test_fetch_word_runs :
    (step (State.reset.withFetchWord 32 0x24000000)) =
      exec .decse { State.reset.withFetchWord 32 0x24000000 with input := [] } := by rfl

theorem test_no_command : step State.reset = .fault .noCommand := by rfl

theorem test_truncated_command : step (presented [0x21, 0, 0, 0] State.reset) = .refused .truncatedCommand := by rfl

theorem test_illegal_step :
    (stateOf (step (presented [0, 0, 0, 0, 0x01] State.reset))).map (fun t => (t.status.word, t.input, t.pc)) =
      some (0x991#12, [0x01], 1) := by decide

/-! ### Single commands (95_test_vectors.md section 3) -/

theorem test_init :
    shown (exec .init (faulted (at_ [0xA0] 0 3 3))) = some (.ok, .none, ⟨⟨[]⟩, 0, 0, 0⟩) := by decide

/-- R23: after EPINS of a zero byte and PACK of a bit, INIT leaves the hidden state as reset does. -/
theorem test_init_hidden :
    (stateOf (exec .init { at_ [0xA0] 0 3 3 with ep := ⟨true, false⟩, rp := ⟨0x01, 1⟩ })).map (fun t => (t.ep, t.rp)) =
      some (⟨false, false⟩, ⟨0, 0⟩) := by decide

theorem test_load :
    shown (exec (.load [0x0A, 0x0B]) (at_ [0xA0] 0 3 3)) = some (.ok, .none, ⟨⟨[0x0A, 0x0B]⟩, 0, 0, 0⟩) := by decide

theorem test_load_over_cap :
    shown (exec (.load [0x0A, 0x0B, 0x0C]) (capped 2 (at_ [1, 2] 0 0 0))) =
      some (.capacityExceeded, .none, ⟨⟨[1, 2]⟩, 0, 0, 0⟩) := by decide

theorem test_dump : answerOf (exec .dump (faulted (at_ [0xA0] 1 0 3))) = some (.ok, .bytes [0xA0]) := by decide

theorem test_rdreg_status :
    answerOf (exec (.rdreg 5#8) (faulted (at_ [] 0 0 0))) = some (.ok, .value 0x991) := by decide

theorem test_rdreg_six :
    (stateOf (exec (.rdreg 6#8) State.reset)).map (fun t => t.status.word) = some 0x991#12 := by decide

theorem test_wrctrl :
    (stateOf (exec (.wrctrl 0#8) State.reset)).map (fun t => t.ctrl.strict) = some false := by decide

theorem test_wrctrl_two : answerOf (exec (.wrctrl 2#8) State.reset) = some (.illegalCommand, .none) := by decide

theorem test_appbytes_mid_byte :
    shown (exec (.appbytes [0x11, 0x22]) (at_ [0xA0] 0 0 3)) =
      some (.ok, .none, ⟨⟨[0xA0, 0x11, 0x22]⟩, 0, 0, 0⟩) := by decide

theorem test_appbytes_empty :
    shown (exec (.appbytes []) (at_ [0xA0] 0 0 3)) = some (.ok, .none, ⟨⟨[0xA0]⟩, 0, 0, 0⟩) := by decide

theorem test_appbits_merge :
    shown (exec (.appbits [true]) (at_ [0x80] 0 0 1)) = some (.ok, .none, ⟨⟨[0xC0]⟩, 0, 0, 2⟩) := by decide

theorem test_appbits_over_cap :
    shown (exec (.appbits (List.replicate 8 true)) (capped 2 (at_ [0x01, 0x80] 0 0 1))) =
      some (.capacityExceeded, .none, ⟨⟨[0x01, 0x80]⟩, 0, 0, 1⟩) := by decide

theorem test_rdbytes_skips :
    shown (exec (.rdbytes 2) (at_ [0xA0, 0xB1, 0xC2, 0xD3, 0xE4] 0 4 0)) =
      some (.ok, .bytes [0xB1, 0xC2], ⟨⟨[0xA0, 0xB1, 0xC2, 0xD3, 0xE4]⟩, 4, 0, 0⟩) := by decide

theorem test_rdbytes_tail :
    (stateOf (exec (.rdbytes 2) (at_ [0xA0, 0xB1, 0xC2] 0 4 0))).map (fun t => t.cursor.rbyte) = some 3 ∧
    (stateOf (exec (.rdbytes 2) (tailed .overshoot (at_ [0xA0, 0xB1, 0xC2] 0 4 0)))).map (fun t => t.cursor.rbyte) =
      some 4 ∧
    (stateOf (exec (.rdbytes 2) (tailed .exhaust (at_ [0xA0, 0xB1, 0xC2] 0 4 0)))).map
      (fun t => (t.status.last, t.cursor.rbyte)) = some (.exhausted, 1) := by decide

theorem test_rdbits_across :
    shown (exec (.rdbits 7#8) (at_ [0xA5, 0xC0] 0 3 0)) = some (.ok, .value 23, ⟨⟨[0xA5, 0xC0]⟩, 1, 2, 0⟩) := by decide

theorem test_rdbits_exhausted :
    shown (exec (.rdbits 7#8) (at_ [0xA5, 0xC0] 1 2 0)) = some (.exhausted, .none, ⟨⟨[0xA5, 0xC0]⟩, 2, 0, 0⟩) := by decide

theorem test_encf :
    answerOf (exec (.encf 8#8 66) State.reset) =
      some (.ok, .bits [false, true, false, false, false, false, true, false]) := by decide

theorem test_encf_lax :
    (stateOf (exec (.encf 3#8 9) (lax State.reset))).map (fun t => (t.status.word, t.lastResult)) =
      some (0x302#12, .bits [false, false, true]) := by decide

theorem test_encue :
    answerOf (exec (.encue 15) State.reset) =
      some (.ok, .bits [false, false, false, false, true, false, false, false, false]) ∧
    answerOf (exec (.encue 0) State.reset) = some (.ok, .bits [true]) := by decide

theorem test_encse :
    answerOf (exec (.encse (-2)) State.reset) = some (.ok, .bits [false, false, true, false, true]) ∧
    answerOf (exec (.encse 3) State.reset) = some (.ok, .bits [false, false, true, true, false]) := by decide

theorem test_decue :
    shown (exec .decue (at_ [0x08, 0x80] 0 0 0)) = some (.ok, .value 16, ⟨⟨[0x08, 0x80]⟩, 1, 1, 0⟩) := by decide

theorem test_decue_zeros :
    shown (exec .decue (at_ (List.replicate 9 0) 0 0 0)) =
      some (.decodeRange, .none, ⟨⟨List.replicate 9 0⟩, 8, 1, 0⟩) := by decide

theorem test_decse :
    shown (exec .decse (at_ [0x28] 0 0 0)) = some (.ok, .value (2 ^ 64 - 2), ⟨⟨[0x28]⟩, 0, 5, 0⟩) := by decide

theorem test_decse_positive :
    shown (exec .decse (at_ [0x30] 0 0 0)) = some (.ok, .value 3, ⟨⟨[0x30]⟩, 0, 5, 0⟩) := by decide

theorem test_widthu :
    [0, 1, 2, 255, 256].map (fun n => answerOf (exec (.widthu n) State.reset)) =
      [1, 1, 2, 8, 9].map fun w => some (.ok, .value w) := by decide

theorem test_widths :
    [(-8, 8), (0, 16), (3, 3), (0, 257)].map (fun p => answerOf (exec (.widths p.1 p.2) State.reset)) =
      [4, 4, 1, 9].map fun w => some (.ok, .value w) := by decide

theorem test_widths_empty : answerOf (exec (.widths 5 4) State.reset) = some (.illegalCommand, .none) := by decide

theorem test_pack :
    answerOf (exec (.pack [true, true, true, true, false, false, false, false, true, false]) State.reset) =
      some (.ok, .bytes [0xF0, 0x80]) := by decide

theorem test_packt :
    answerOf ((Pseudo.packt [true, false, true, false, true, false, true]).run State.reset) =
      some (.ok, .bytes [0xAB]) := by decide

theorem test_epins_six_zeros :
    answerOf (exec (.epins [0, 0, 0, 0, 0, 0]) State.reset) = some (.ok, .bytes [0, 0, 3, 0, 0, 3, 0, 0]) := by decide

theorem test_epins_rearms :
    answerOf (exec (.epins [0, 0, 0, 5]) State.reset) = some (.ok, .bytes [0, 0, 3, 0, 5]) := by decide

/-- Section 2: the response to `ENCF 9, 3` with `STRICT = 0`. -/
theorem test_response_bytes :
    Response.encode Config.defaults ⟨.overflowWarning, .bits [false, false, true]⟩ =
      [0x32, 0, 0, 0, 0, 0, 0, 3, 0x20] := by decide

theorem test_text :
    instrText (.encf 8#8 66) (some "b".toList) = "ENCF 66, 8 -> $b".toList ∧
    instrText (.widths (-8) 8) none = "WIDTHS -8, 8".toList ∧
    instrText (.epins [0, 0, 0xA1]) none = "EPINS x'00 00 a1'".toList ∧
    instrText (.appbits [true, false]) none = "APPBITS '10'".toList := by decide

/-! ### Witnesses: what meets the hypotheses of the statements -/

theorem witness_DecodeInvertsEncode :
    Config.defaults.wf = true ∧ (Instr.widths (-2 ^ 63) (2 ^ 63 - 1)).wf Config.defaults = true ∧
    (Config.mk 255 none .clamp true).wf = true ∧ (Instr.encue (2 ^ 255 - 1)).wf (Config.mk 255 none .clamp true) = true := by
  decide

theorem witness_EncodeInvertsDecode :
    Config.defaults.wf = true ∧ decode Config.defaults [0x13, 0xFF, 0, 0, 0x77] = .command (.rdbits 255#8) [0x77] := by
  decide

theorem witness_OpcodeRowsDoNotOverlap :
    ⟨.rdreg, .z, 0x04000000#32, 0xFF00FFFF#32⟩ ∈ opcodeTable ∧ 0x04FF0000#32 &&& 0xFF00FFFF#32 = 0x04000000#32 := by
  decide

theorem witness_UnmatchedWordIsIllegal_unassigned :
    (presented [0, 0, 0, 0, 7] State.reset).resetRequest = false ∧
    (∀ r ∈ opcodeTable, r.pattern.extractLsb' 24 8 ≠ (0#32).extractLsb' 24 8) ∧
    (presented [0, 0, 0, 0, 7] State.reset).input = beBytes 4 (0#32).toNat ++ [7] := by decide

/-- Operand bytes that no command has: a one among the pad bits; a value word alone. -/
theorem witness_UnmatchedWordIsIllegal_assigned :
    (∀ r ∈ opcodeTable, 0x11010000#32 &&& r.mask ≠ r.pattern) ∧
    ⟨.appbits, .pb, 0x11000000#32, 0xFFFFFFFF#32⟩ ∈ opcodeTable ∧
    (0x11000000#32).extractLsb' 24 8 = (0x11010000#32).extractLsb' 24 8 ∧
    FormatBytes State.reset.cfg .pb [0, 0, 0, 5, 0xB9] ∧
    (presented [0x11, 1, 0, 0, 0, 0, 0, 5, 0xB9, 7] State.reset).input =
      beBytes 4 (0x11010000#32).toNat ++ [0, 0, 0, 5, 0xB9] ++ [7] ∧
    (∀ r ∈ opcodeTable, 0x25000001#32 &&& r.mask ≠ r.pattern) ∧
    FormatBytes State.reset.cfg .v [0, 0, 0, 0, 0, 0, 0, 5] :=
  ⟨by decide, by decide, by decide, ⟨5, [0xB9], by decide, by decide, by decide⟩, by decide, by decide, rfl⟩

theorem witness_NonZeroPadBitsAreIllegal :
    (1 < 2 ^ 32 ∧ [(0xC0 : Byte)].length = (1 + 7) / 8 ∧ (bitsOf [0xC0])[1]? = some true ∧
      (presented [0x11, 0, 0, 0, 0, 0, 0, 1, 0xC0, 9] State.reset).input =
        [0x11#8, 0x00#8, 0x00#8, 0x00#8] ++ beBytes 4 1 ++ [0xC0] ++ [9]) ∧
    ((bitsOf [0xB9])[7]? = some true ∧
      (presented [0x30, 0, 0, 0, 0, 0, 0, 5, 0xB9] State.reset).input =
        [0x30#8, 0x00#8, 0x00#8, 0x00#8] ++ beBytes 4 5 ++ [0xB9] ++ []) := by decide

/-- The highest and the lowest of the seven unused bits of a 40-bit word at `VAL_W = 33`. -/
theorem witness_ValueHighBitsAreIllegal :
    let s := { State.reset with cfg := { Config.defaults with valW := 33 } }
    ([(2 : Byte), 0, 0, 0, 0].length = (s.cfg.valW + 7) / 8 ∧ 6 + s.cfg.valW < 8 * [(2 : Byte), 0, 0, 0, 0].length ∧
      (bitsOf [0x02, 0, 0, 0, 0])[6]? = some true ∧ (bitsOf [0x80, 0, 0, 0, 0])[0]? = some true ∧
      (presented [0x21, 0, 0, 0, 2, 0, 0, 0, 0, 9] s).input =
        [0x21#8, 0x00#8, 0x00#8, 0x00#8] ++ [2, 0, 0, 0, 0] ++ [9]) ∧
    (presented [0x26, 0, 0, 0, 1, 0, 0, 0, 0, 2, 0, 0, 0, 0] s).input =
      [0x26#8, 0x00#8, 0x00#8, 0x00#8] ++ [1, 0, 0, 0, 0] ++ [2, 0, 0, 0, 0] ++ [] := by decide

theorem witness_StepRunsDecodedCommand :
    (presented [0x03, 0, 0, 0, 1] State.reset).resetRequest = false ∧
    decode State.reset.cfg (presented [0x03, 0, 0, 0, 1] State.reset).input = .command .dump [1] := by decide

theorem witness_ResetRequestResetsBlock : { State.reset with resetRequest := true }.resetRequest = true := by decide

theorem witness_StepKeepsInvariant :
    (presented [0x11, 0, 0, 0, 0, 0, 0, 1, 0x80] (at_ [0xA0] 0 3 3)).Inv ∧
    ∃ t, step (presented [0x11, 0, 0, 0, 0, 0, 0, 1, 0x80] (at_ [0xA0] 0 3 3)) = .next t := ⟨by decide, _, rfl⟩

theorem witness_CommandAdvancesPcAndAnswersOnce :
    (presented [0, 0, 0, 0] State.reset).resetRequest = false ∧
    ∃ t, step (presented [0, 0, 0, 0] State.reset) = .next t := ⟨by decide, _, rfl⟩

theorem witness_FaultStateRefusesWork :
    (faulted State.reset).status.fault = true ∧
    (Op.decue ≠ .init ∧ Op.decue ≠ .load ∧ Op.decue ≠ .dump ∧ Op.decue ≠ .rdreg) ∧
    (capped 2 (faulted State.reset)).cfg.cap = some 2 ∧ 2 < [(1 : Byte), 2, 3].length ∧ 5 < (6#8).toNat := by decide

theorem witness_FaultStateRefusesWork_dump :
    (faulted (at_ (List.replicate (2 ^ 32) 0) 0 0 0)).status.fault = true ∧
    2 ^ 32 ≤ (faulted (at_ (List.replicate (2 ^ 32) 0) 0 0 0)).cursor.contents.bytes.length :=
  ⟨rfl, le_of_eq List.length_replicate.symm⟩

theorem witness_FatalFaultEntryIsPrecise :
    State.reset.status.fault = false ∧ (∃ t, exec (.encf 3#8 8) State.reset = .next t ∧ t.status.fault = true) ∧
    ∃ t, step (presented [0, 0, 0, 0] State.reset) = .next t ∧ t.status.fault = true :=
  ⟨rfl, ⟨_, rfl, rfl⟩, _, rfl, rfl⟩

theorem witness_FaultEndsOnlyByNewSession :
    (∃ t, step (presented [0x01, 0, 0, 0] (faulted State.reset)) = .next t ∧ t.status.fault = false) ∧
    (∃ t, step (presented [0x02, 0, 0, 0, 0, 0, 0, 0] (faulted State.reset)) = .next t ∧ t.status.fault = false) ∧
    ∃ t, step { faulted State.reset with resetRequest := true } = .next t ∧ t.status.fault = false :=
  ⟨⟨_, rfl, rfl⟩, ⟨_, rfl, rfl⟩, _, rfl, rfl⟩

theorem witness_CtrlWrittenOnlyByWrctrlOrReset :
    (∃ t, step (presented [0x05, 0, 0, 0] State.reset) = .next t ∧ t.ctrl ≠ State.reset.ctrl) ∧
    ∃ t, step { lax State.reset with resetRequest := true } = .next t ∧ t.ctrl ≠ (lax State.reset).ctrl :=
  ⟨⟨_, rfl, by decide⟩, _, rfl, by decide⟩

theorem witness_ContentsChangeOnlyAtEnd :
    (Instr.appbits [true]).op ≠ .init ∧ (Instr.appbits [true]).op ≠ .load ∧ (at_ [7] 0 0 0).cursor.wbit = 0 ∧
    (Instr.appbytes [1]).op ≠ .appbits ∧ (∃ t, exec (.appbits [true]) (at_ [7] 0 0 0) = .next t) ∧
    ∃ t, exec (.appbytes [1]) (at_ [7, 8] 0 0 0) = .next t :=
  ⟨by decide, by decide, by decide, by decide, ⟨_, rfl⟩, _, rfl⟩

theorem witness_PointersAreIndependentAndMonotone :
    (∃ t, exec (.rdbits 3#8) (at_ [7] 0 0 0) = .next t) ∧ (∃ t, exec (.appbits [true]) (at_ [7] 0 0 0) = .next t) ∧
    ∃ t, exec (.encue 3) (at_ [7] 0 0 0) = .next t := ⟨⟨_, rfl⟩, ⟨_, rfl⟩, _, rfl⟩

theorem witness_LoadCreatesCursor :
    (∀ cap, (capped 2 State.reset).cfg.cap = some cap → [(1 : Byte), 2].length ≤ cap) ∧
    (capped 2 State.reset).cfg.cap = some 2 ∧ 2 < [(1 : Byte), 2, 3].length := by
  simp [capped]

theorem witness_DumpReturnsContents :
    (at_ [0xA0] 0 0 0).cursor.contents.bytes.length < 2 ^ 32 ∧
    2 ^ 32 ≤ (at_ (List.replicate (2 ^ 32) 0) 0 0 0).cursor.contents.bytes.length :=
  ⟨by decide, le_of_eq List.length_replicate.symm⟩

theorem witness_RdregReturnsRegister :
    12 ≤ State.reset.cfg.valW ∧ State.reset.cursor.contents.bytes.length < 2 ^ State.reset.cfg.valW ∧
    (at_ [] (2 ^ 64 - 1) 0 0).cursor.rbyte < 2 ^ State.reset.cfg.valW ∧ 5 < (6#8).toNat ∧
    2 ^ State.reset.cfg.valW ≤ (at_ [] (2 ^ 64) 0 0).cursor.rbyte ∧
    2 ^ State.reset.cfg.valW ≤ (at_ (List.replicate (2 ^ 64) 0) 0 0 0).cursor.contents.bytes.length :=
  ⟨by decide, by decide, by decide, by decide, by decide, le_of_eq List.length_replicate.symm⟩

theorem witness_WrctrlWritesStrict : State.reset.status.fault = false ∧ 1 < (2#8).toNat := by decide

theorem witness_DumpThenLoadRestoresContents :
    (capped 1 (at_ [0xA0] 0 2 3)).cursor.contents.bytes.length < 2 ^ 32 ∧
    ∀ cap, (capped 1 (at_ [0xA0] 0 2 3)).cfg.cap = some cap →
      (capped 1 (at_ [0xA0] 0 2 3)).cursor.contents.bytes.length ≤ cap := by
  refine ⟨by decide, ?_⟩
  simp [capped, at_]

theorem witness_AppbytesAppends :
    (capped 2 (at_ [0xA0] 0 0 3)).status.fault = false ∧
    (∀ cap, (capped 2 (at_ [0xA0] 0 0 3)).cfg.cap = some cap →
      (capped 2 (at_ [0xA0] 0 0 3)).cursor.contents.bytes.length + [(1 : Byte)].length ≤ cap) ∧
    (capped 2 (at_ [0xA0] 0 0 3)).cfg.cap = some 2 ∧
    2 < (capped 2 (at_ [0xA0] 0 0 3)).cursor.contents.bytes.length + [(1 : Byte), 2].length := by
  refine ⟨by decide, ?_, by decide, by decide⟩
  simp [capped, at_]

theorem witness_AppbitsClosedForm :
    (at_ [0xA0] 0 0 3).status.fault = false ∧ (at_ [0xA0] 0 0 3).cursor.Ok Config.defaults ∧
    (at_ [0xA0] 0 0 3).cfg.cap = none ∧
    (∃ t u v, exec (.appbits [true]) (at_ [0xA0] 0 0 3) = .next t ∧ exec (.appbits [false]) t = .next u ∧
      exec (.appbits [true, false]) (at_ [0xA0] 0 0 3) = .next v) ∧
    ∃ t, exec (.pack [true, false]) (at_ [0xA0] 0 0 3) = .next t :=
  ⟨by decide, by decide, by decide, ⟨_, _, _, rfl, rfl, rfl⟩, _, rfl⟩

theorem witness_AppbitsCapacity :
    let s := capped 2 (at_ [0x01, 0x80] 0 0 1)
    s.status.fault = false ∧ s.cfg.cap = some 2 ∧ s.cursor.Ok s.cfg ∧
    s.cursor.contents.len + ((1 + 7 + 7) / 8 - (1 + 7) / 8) ≤ 2 ∧
    2 < s.cursor.contents.len + ((1 + 8 + 7) / 8 - (1 + 7) / 8) := by decide

theorem witness_RdbitsReadsNextBits :
    (at_ (List.replicate 8 0xFF) 0 0 0).status.fault = false ∧ (64#8).toNat ≤ Config.defaults.valW ∧
    (64#8).toNat ≤ (at_ (List.replicate 8 0xFF) 0 0 0).cursor.unread.length ∧
    Config.defaults.valW < (65#8).toNat := by decide

theorem witness_RdbitsExhaustsWithoutRollback :
    let s := at_ [0xDE, 0xAD, 0xBE, 0xEF] 0 4 0
    s.status.fault = false ∧ s.cursor.Ok s.cfg ∧ (29#8).toNat ≤ s.cfg.valW ∧ s.cursor.unread.length < (29#8).toNat := by
  decide

theorem witness_MixedWidthReadsRegroup :
    let s := at_ [0x12, 0x34, 0x56] 0 0 0
    s.status.fault = false ∧ (16#8).toNat + (8#8).toNat < 256 ∧ (16#8).toNat + (8#8).toNat ≤ s.cfg.valW ∧
    (16#8).toNat + (8#8).toNat ≤ s.cursor.unread.length := by decide

/-- Each clause at `p + n` just below, at, and just above `LEN`, with a partly read byte. -/
theorem witness_RdbytesReturnsRunAndSkips :
    let s := at_ [0xA0, 0xB1, 0xC2] 0 4 0
    s.status.fault = false ∧ 1 = (if s.cursor.rbit = 0 then s.cursor.rbyte else s.cursor.rbyte + 1) ∧
    1 + 1 < s.cursor.contents.bytes.length ∧ 1 + 2 = s.cursor.contents.bytes.length ∧
    s.cursor.contents.bytes.length < 1 + 3 ∧ s.cfg.rbTail = .clamp ∧ (tailed .overshoot s).cfg.rbTail = .overshoot ∧
    (tailed .exhaust s).cfg.rbTail = .exhaust := by decide

theorem witness_RdbytesReturnsRunAndSkips_long :
    (at_ (List.replicate (2 ^ 32) 0) 0 0 0).status.fault = false ∧
    0 + 2 ^ 32 = (at_ (List.replicate (2 ^ 32) 0) 0 0 0).cursor.contents.bytes.length ∧
    (at_ (List.replicate (2 ^ 32) 0) 0 0 0).cfg.rbTail ≠ .exhaust :=
  ⟨rfl, (List.length_replicate ..).symm, by decide⟩

theorem witness_EncfSpellsValue :
    State.reset.status.fault = false ∧ (64#8).toNat ≤ State.reset.cfg.valW ∧ 2 ^ 64 - 1 < 2 ^ (64#8).toNat ∧
    (0#8).toNat ≤ State.reset.cfg.valW ∧ 0 < 2 ^ (0#8).toNat ∧ State.reset.cfg.valW < (65#8).toNat := by decide

theorem witness_EncfOverflowFollowsStrict :
    State.reset.status.fault = false ∧ (3#8).toNat ≤ State.reset.cfg.valW ∧ 2 ^ (3#8).toNat ≤ 8 ∧
    State.reset.ctrl.strict = true ∧ (lax State.reset).ctrl.strict = false := by decide

theorem witness_EncueReturnsExpGolombCode :
    State.reset.status.fault = false ∧ (1 ≤ 1 ∧ 2 ^ (1 - 1) ≤ 0 + 1 ∧ 0 + 1 < 2 ^ 1) ∧
    2 ^ (65 - 1) ≤ (2 ^ 64 - 1) + 1 ∧ (2 ^ 64 - 1) + 1 < 2 ^ 65 := by decide

theorem witness_EncseReturnsCodeOfCodeNumber :
    State.reset.status.fault = false ∧ ((0 : Int) ≤ 0 ∧ ((0 : Nat) : Int) = -2 * 0) ∧
    ((0 : Int) < 1 ∧ ((1 : Nat) : Int) = 2 * 1 - 1) := by decide

theorem witness_WidthuIsLeastWidth : State.reset.status.fault = false := by decide

theorem witness_WidthsIsLeastWidth : (3 : Int) ≤ 3 ∧ (4 : Int) < 5 := by decide

/-- `z = 64` with suffix 0 fits a value word, with suffix 1 it does not. -/
theorem witness_DecueReadsOneCode :
    let s := at_ (List.replicate 8 0 ++ [0x80] ++ List.replicate 7 0 ++ [0x80]) 0 0 0
    s.status.fault = false ∧ 64 ≤ s.cfg.valW ∧
    s.cursor.unread = List.replicate 64 false ++ [true] ++ (List.replicate 63 false ++ [true]) ++ List.replicate 7 false ∧
    2 ^ s.cfg.valW ≤ 2 ^ 64 - 1 + val (List.replicate 63 false ++ [true]) ∧
    2 ^ 64 - 1 + val (List.replicate 64 false) < 2 ^ s.cfg.valW := by decide

theorem witness_DecseReadsOneCode :
    let s := at_ [0x28] 0 0 0
    s.status.fault = false ∧ 1 ≤ s.cfg.valW ∧ 2 ≤ s.cfg.valW ∧
    s.cursor.unread = List.replicate 2 false ++ [true] ++ [false, true] ++ [false, false, false] ∧
    4 = 2 ^ 2 - 1 + val [false, true] ∧ (4 % 2 = 0 ∧ 2 * (-2 : Int) = -4) ∧
    ((2 ^ 64 - 2 : Nat) < 2 ^ s.cfg.valW ∧ -(2 ^ (s.cfg.valW - 1)) ≤ (-2 : Int) ∧
      ((2 ^ 64 - 2 : Nat) : Int) = -2 + 2 ^ s.cfg.valW) ∧
    ((2 ^ 64 - 1) % 2 = 1 ∧ 2 * (2 ^ 63 : Int) = (2 ^ 64 - 1 : Nat) + 1 ∧ 2 ^ (s.cfg.valW - 1) ≤ (2 ^ 63 : Int)) := by
  decide

/-- The clause `0 ≤ v`, at 0 and at the largest signed value. -/
theorem witness_DecseReadsOneCode_nonnegative :
    let s := at_ [0x80] 0 0 0
    let m := at_ (List.replicate 7 0 ++ [0x01] ++ List.replicate 7 0xFF ++ [0xFC]) 0 0 0
    (s.cursor.unread = List.replicate 0 false ++ [true] ++ [] ++ List.replicate 7 false ∧ 0 = 2 ^ 0 - 1 + val [] ∧
      (0 % 2 = 0 ∧ 2 * (0 : Int) = -0) ∧ (0 : Int) < 2 ^ (s.cfg.valW - 1)) ∧
    m.cursor.unread =
      List.replicate 63 false ++ [true] ++ (List.replicate 62 true ++ [false]) ++ [false] ∧
    2 ^ 64 - 3 = 2 ^ 63 - 1 + val (List.replicate 62 true ++ [false]) ∧ (2 ^ 64 - 3) % 2 = 1 ∧
    2 * (2 ^ 63 - 1 : Int) = (2 ^ 64 - 3 : Nat) + 1 ∧ (2 ^ 63 - 1 : Int) < 2 ^ (m.cfg.valW - 1) ∧
    2 ^ 63 - 1 < 2 ^ m.cfg.valW ∧ ((2 ^ 63 - 1 : Nat) : Int) = 2 ^ 63 - 1 := by decide

theorem witness_DecodersExhaustOnCutCode :
    (at_ (List.replicate 8 0) 0 0 0).cursor.Ok Config.defaults ∧ 64 ≤ Config.defaults.valW ∧
    (at_ (List.replicate 8 0) 0 0 0).cursor.unread = List.replicate 64 false ∧
    (at_ [0x08] 0 0 0).cursor.Ok Config.defaults ∧ [false, false, false].length < 4 ∧
    (at_ [0x08] 0 0 0).cursor.unread = List.replicate 4 false ++ [true] ++ [false, false, false] := by decide

theorem witness_DecodersStopAfterTooManyZeros :
    (at_ (List.replicate 9 0) 0 0 0).cursor.unread =
      List.replicate (Config.defaults.valW + 1) false ++ List.replicate 7 false := by decide

/-- Fields at the ends of their ranges, after three bits already written and read. -/
theorem witness_MixedStreamRoundTrip :
    let s := at_ [0xA0] 0 3 3
    s.Inv ∧ s.cfg.wf = true ∧ s.status.fault = false ∧ s.cursor.readPos = s.cursor.writePos ∧ s.cfg.cap = none ∧
    (64 ≤ s.cfg.nMax ∧ 2 ^ 64 - 1 < 2 ^ 64) ∧ 2 ^ 64 - 1 < 2 ^ s.cfg.valW ∧
    -(2 ^ (s.cfg.valW - 1) : Int) ≤ -2 ^ 63 ∧ (-2 ^ 63 : Int) < 2 ^ (s.cfg.valW - 1) ∧
    [[true], [false, true, false, true, true]].flatten = ([Field.ue 0, .fixed 1 2, .se (-1)].map Field.bits).flatten := by
  decide

theorem witness_PackMatchesAppbits :
    (at_ [7] 0 0 0).status.fault = false ∧ (at_ [7] 0 0 0).cfg.cap = none ∧ (at_ [7] 0 0 0).cursor.wbit = 0 := by decide

theorem witness_PacktEndsInStopBit :
    State.reset.status.fault = false ∧ ([] : Bits).length % 8 = 0 ∧ (List.replicate 7 true).length % 8 = 7 := by decide

theorem witness_EpinsMatchesCounterForm :
    State.reset.status.fault = false ∧ (counterEscape 0 [0, 0, 0]).length < 2 ^ 32 ∧
    2 ^ 32 ≤ (counterEscape 0 (List.replicate (2 ^ 32) 0#8)).length :=
  ⟨rfl, by decide, by rw [counterEscape_zeros_length (by omega)]; omega⟩

theorem witness_EscapedForm :
    ∃ t, exec (.epins [0, 0, 0]) State.reset = .next t ∧ t.lastResult = .bytes [0, 0, 3, 0] := ⟨_, rfl, by decide⟩

theorem witness_EscapedLengthBound :
    State.reset.status.fault = false ∧ 1 ≤ [(0 : Byte), 0, 0].length ∧
    [(0 : Byte), 0, 0].length + ([(0 : Byte), 0, 0].length - 1) / 2 < 2 ^ 32 ∧
    [(0 : Byte), 0, 0] = List.replicate [(0 : Byte), 0, 0].length 0x00#8 := by decide

theorem witness_ZeroRunEscapedEveryTwoZeros :
    (∃ t, exec (.epins (List.replicate (2 * 2 + 2) 0x00#8)) State.reset = .next t ∧
      t.lastResult = .bytes [0, 0, 3, 0, 0, 3, 0, 0]) ∧
    ∃ t, exec (.epins (List.replicate (2 * 1 + 3) 0x00#8)) State.reset = .next t ∧
      t.lastResult = .bytes [0, 0, 3, 0, 0, 3, 0] := ⟨⟨_, rfl, by decide⟩, _, rfl, by decide⟩

/-- The paths of PUTF at the largest width, at one more, and at the least value that does not fit. -/
theorem witness_PseudoInstructionsExpand :
    State.reset.status.fault = false ∧ (faulted State.reset).status.fault = true ∧
    ((64#8).toNat ≤ State.reset.cfg.valW ∧ 2 ^ 64 - 1 < 2 ^ (64#8).toNat) ∧ State.reset.cfg.valW < (65#8).toNat ∧
    ((3#8).toNat ≤ State.reset.cfg.valW ∧ 2 ^ (3#8).toNat ≤ 8 ∧ State.reset.ctrl.strict = true) ∧
    ((lax State.reset).status.fault = false ∧ (lax State.reset).ctrl.strict = false) := by decide

/-- PUTF of 9 in 3 bits at `STRICT = 0` appends the masked bits 001. -/
theorem test_putf_lax :
    shown ((Pseudo.putf 9 3#8).run (lax State.reset)) = some (.ok, .none, ⟨⟨[0x20]⟩, 0, 0, 3⟩) := by decide

end Sys2Proof.Tests
end

section
/-!
PROOF. A step that takes a command is `exec` of that command (R6, R84).
-/
namespace Sys2Proof.Machine

/-- No bytes hold no command word: the decoder waits for more (R157). -/
theorem decode_nil (c : Config) : decode c [] = .incomplete := rfl

/-- Bytes that hold a command are not empty, so the host has presented something (R8). -/
theorem ne_nil_of_decode_command {c : Config} {bs rest : Bytes} {i : Instr} (h : decode c bs = .command i rest) :
    bs ≠ [] := by
  rintro rfl
  rw [decode_nil] at h
  cases h

/-- With no reset requested, the next thing the block does is the command the presented bytes decode to. -/
theorem fetch_of_command {s : State} {i : Instr} {rest : Bytes} (hr : s.resetRequest = false)
    (h : decode s.cfg s.input = .command i rest) : fetch s = .command i { s with input := rest } := by
  have hne : s.input ≠ [] := ne_nil_of_decode_command h
  simp [fetch, hr, hne, h]

/-- Settles O9: neither the reset nor the empty input stands before the decoded command, so `fetch` yields it and the
step executes it. -/
theorem stepRunsDecodedCommand : Obligations.StepRunsDecodedCommand := by
  intro s i rest hr h
  rw [step, fetch_of_command hr h]

end Sys2Proof.Machine
end

section
/-!
PROOF. The cursor half of the invariant (R21 items 2 to 5): every way a command can leave the cursor, as `CursorEffect`
lists them, keeps it.
-/
namespace Sys2Proof.Machine

/-- The pad bits below the data bits of a byte are zero (R60). -/
theorem byteOfBits_pad {h : Bits} (hl : h.length ≤ 8) : (byteOfBits h).toNat % 2 ^ (8 - h.length) = 0 := by
  rw [byteOfBits_toNat hl, Nat.mul_mod_left]

theorem drop_wholeBytes_length (h : Bits) : (h.drop (8 * (h.length / 8))).length = h.length % 8 := by
  rw [List.length_drop]; omega

/-- The last byte of a layout that ends inside a byte carries the bits behind the last whole byte (R60). -/
theorem bytesOf_getLast? {h : Bits} (hh : h.length % 8 ≠ 0) :
    (bytesOf h).getLast? = some (byteOfBits (h.drop (8 * (h.length / 8)))) := by
  have hfull : (h.take (8 * (h.length / 8))).length % 8 = 0 := by simp; omega
  have hrest := drop_wholeBytes_length h
  have hne : h.drop (8 * (h.length / 8)) ≠ [] := fun h0 => by simp [h0] at hrest; omega
  conv_lhs => rw [← List.take_append_drop (8 * (h.length / 8)) h]
  rw [bytesOf_append hfull, bytesOf_short _ hne (by omega), List.getLast?_concat]

/-- The pad bits of a layout that ends inside a byte are zero (R60). -/
theorem bytesOf_pad {h : Bits} (hh : h.length % 8 ≠ 0) :
    ∀ b ∈ (bytesOf h).getLast?, b.toNat % 2 ^ (8 - h.length % 8) = 0 := by
  intro b hb
  rw [bytesOf_getLast? hh, Option.mem_some_iff] at hb
  rw [← hb, ← drop_wholeBytes_length h]
  exact byteOfBits_pad (by rw [drop_wholeBytes_length]; omega)

/-- A fresh cursor over bytes that `CAP` allows (R150, R151). -/
theorem freshCursor_ok {cfg : Config} {bytes : Bytes} (h : Config.exceedsCap cfg bytes.length = false) :
    Cursor.Ok cfg ⟨⟨bytes⟩, 0, 0, 0⟩ :=
  ⟨Nat.zero_le _, by simp, by simp, by simp, (exceedsCap_eq_false_iff cfg bytes.length).mp h⟩

/-- The empty cursor of INIT and of the reset (R23). -/
theorem emptyCursor_ok (cfg : Config) : Cursor.Ok cfg ⟨⟨[]⟩, 0, 0, 0⟩ :=
  freshCursor_ok ((exceedsCap_eq_false_iff cfg _).mpr fun _ _ => Nat.zero_le _)

/-- A read of unread bits keeps the read pointer in `contents`, and a partly consumed byte exists (R96). -/
theorem atPos_ok {cfg : Config} {c : Cursor} (h : c.Ok cfg) {n : Nat} (hn : n ≤ c.unread.length) :
    (c.atPos (c.readPos + n)).Ok cfg := by
  obtain ⟨hin, hpart, hwrite⟩ := h
  have hbit : c.rbit.val ≠ 0 → c.rbyte < c.contents.len := fun h0 => hpart fun e => h0 (by rw [e]; rfl)
  rw [unread_length] at hn
  refine ⟨?_, fun hr => ?_, hwrite⟩
  · simp only [atPos_rbyte, atPos_contents, Cursor.readPos] at hn ⊢
    omega
  · have hr' : (c.readPos + n) % 8 ≠ 0 := fun e => hr (Fin.ext e)
    simp only [atPos_rbyte, atPos_contents, Cursor.readPos] at hn hr' ⊢
    omega

/-- The alignment of RDBYTES stays in `contents`: the byte it leaves exists (R94 step 1). -/
theorem alignRead_ok {cfg : Config} {c : Cursor} (h : c.Ok cfg) : c.alignRead.Ok cfg := by
  unfold Cursor.alignRead
  split
  · rename_i hr
    obtain ⟨-, hpart, hwrite⟩ := h
    have hlt : c.rbyte < c.contents.len := hpart fun e => hr (by rw [e]; rfl)
    exact ⟨by simp only; omega, fun h0 => absurd rfl h0, hwrite⟩
  · exact h

/-- The run RDBYTES skips ends at most one byte beyond `contents`, and there only under `overshoot` (R94, R95). -/
theorem skipRun_ok {cfg : Config} {c : Cursor} (h : c.Ok cfg) (hr : c.rbit = 0) {n : Nat}
    (hx : c.runExhausted cfg.rbTail n = false) : (c.skipRun cfg.rbTail n).Ok cfg := by
  obtain ⟨-, -, hwrite⟩ := h
  have hrun : c.rbyte + n ≤ c.contents.len := by
    simp only [Cursor.runExhausted, Bool.or_eq_false_iff, decide_eq_false_iff_not] at hx
    omega
  refine ⟨?_, fun h0 => absurd ((skipRun_rbit c _ n).trans hr) h0, ?_⟩
  · cases ht : cfg.rbTail with
    | overshoot => simp [Cursor.skipRun]; omega
    | clamp | exhaust => simp [Cursor.skipRun]
  · rw [skipRun_contents, skipRun_wbit]
    exact hwrite

/-- APPBYTES ends at a byte boundary, behind all that was there (R91). -/
theorem appendBytes_ok {cfg : Config} {c : Cursor} (h : c.Ok cfg) {bytes : Bytes}
    (hcap : Config.exceedsCap cfg (c.contents.len + bytes.length) = false) :
    Cursor.Ok cfg { c with wbit := 0, contents := c.contents.append bytes } := by
  obtain ⟨hin, hpart, -⟩ := h
  rw [exceedsCap_eq_false_iff] at hcap
  simp only [Cursor.Ok, Memory_append_len]
  exact ⟨by omega, fun hr => Nat.lt_add_right _ (hpart hr), by simp, by simp, hcap⟩

/-- APPBITS adds the bytes its capacity test counts (R92). -/
theorem appendBits_len {cfg : Config} {c : Cursor} (h : c.Ok cfg) (bits : Bits) :
    (bits.foldl Cursor.appendBit c).contents.len = c.contents.len + c.newBytes bits.length := by
  obtain ⟨hlay, hhead⟩ := contents_layout h
  have hlen : c.contents.len = c.body.length + (c.wbit.val + 7) / 8 := by
    rw [Memory.len, hlay, List.length_append, bytesOf_length, hhead]
  rw [appendBits_layout bits hlay (by omega), Memory_len_mk, List.length_append, bytesOf_length, List.length_append,
    hhead, hlen, Cursor.newBytes]
  omega

/-- APPBITS leaves zero pad bits and does not touch the read pointer (R92). -/
theorem appendBits_ok {cfg : Config} {c : Cursor} (h : c.Ok cfg) {bits : Bits}
    (hcap : Config.exceedsCap cfg (c.contents.len + c.newBytes bits.length) = false) :
    (bits.foldl Cursor.appendBit c).Ok cfg := by
  have hlen := appendBits_len h bits
  obtain ⟨hlay, hhead⟩ := contents_layout h
  obtain ⟨hin, hpart, -⟩ := h
  rw [exceedsCap_eq_false_iff, ← hlen] at hcap
  rw [appendBits_layout bits hlay (by omega)] at hcap hlen ⊢
  have hw : Fin.ofNat 8 (c.head.length + bits.length) ≠ 0 → (c.head ++ bits).length % 8 ≠ 0 :=
    fun h0 e => h0 (Fin.ext (by simpa using e))
  refine ⟨?_, fun hr => ?_, fun h0 => ?_, fun h0 b hb => ?_, hcap⟩
  · simp only [hlen]; omega
  · have := hpart hr
    simp only [hlen]; omega
  · have := hw h0
    simp only [Memory_len_mk, List.length_append, bytesOf_length] at this ⊢
    omega
  · have hpad := bytesOf_pad (hw h0) b
    rw [List.length_append] at hpad
    exact hpad (by simpa [List.getLast?_append, bytesOf_getLast? (hw h0)] using hb)

/-- Every cursor a command can leave meets R21 when the one before did. -/
theorem cursorEffect_ok {i : Instr} {s : State} {c : Cursor} (h : s.cursor.Ok s.cfg) (he : CursorEffect i s c) :
    c.Ok s.cfg := by
  rcases he with rfl | ⟨-, rfl⟩ | ⟨bytes, -, hcap, rfl⟩ | ⟨-, n, hn, rfl⟩ | ⟨n, -, rfl | ⟨hx, rfl⟩⟩ |
    ⟨bytes, -, hcap, rfl⟩ | ⟨bits, -, hcap, rfl⟩
  · exact h
  · exact emptyCursor_ok _
  · exact freshCursor_ok hcap
  · exact atPos_ok h hn
  · exact alignRead_ok h
  · exact skipRun_ok (alignRead_ok h) (alignRead_rbit _) hx
  · exact appendBytes_ok h hcap
  · exact appendBits_ok h hcap

end Sys2Proof.Machine
end

section
/-!
PROOF. The invariant of the whole state: the reset establishes it, and every command and every illegal command keeps it.
-/
namespace Sys2Proof.Machine

/-- `CAUSE` agrees with `FAULT` (R17): no cause while `FAULT = 0`, a fatal one while `FAULT = 1`. -/
def Status.CauseAgrees (st : Status) : Prop :=
  (st.fault = false → st.cause = .ok) ∧
  (st.fault = true → st.cause = .encodingOverflow ∨ st.cause = .illegalCommand ∨ st.cause = .capacityExceeded)

theorem inv_iff (s : State) :
    s.Inv ↔ s.cursor.Ok s.cfg ∧ (s.ep.z2 = true → s.ep.z1 = true) ∧ s.status.CauseAgrees ∧ s.rp = ⟨0#8, 0⟩ := by
  simp only [State.Inv, Status.CauseAgrees, and_assoc]

/-- No cause is wanted while `FAULT = 0`. -/
theorem causeAgrees_of_no_fault {st : Status} (hf : st.fault = false) (hc : st.cause = .ok) : st.CauseAgrees :=
  ⟨fun _ => hc, by simp [hf]⟩

/-- A fatal fault records itself as the cause (R201). -/
theorem causeAgrees_of_fault {st : Status} (f : FatalFault) (hf : st.fault = true) (hc : st.cause = f.status) :
    st.CauseAgrees :=
  ⟨by simp [hf], fun _ => by rw [hc]; cases f <;> simp [FatalFault.status]⟩

/-- The reset state meets the invariant at every parameter set (R23). -/
theorem resetWith_inv (c : Config) : (State.resetWith c).Inv :=
  (inv_iff _).mpr ⟨emptyCursor_ok c, by simp [State.resetWith], causeAgrees_of_no_fault rfl rfl, rfl⟩

/-- The invariant does not speak of the host's side, so the reset of a running block meets it as the reset state does. -/
theorem resetBlock_inv (s : State) : (resetBlock s).Inv := resetWith_inv s.cfg

/-- The answer of R155 step 5 writes only `LAST` and the host's side. -/
theorem after_inv {s : State} (h : s.Inv) (code : StatusCode) (r : Result) : (s.after code r).Inv := h

/-- Fault entry sets `FAULT` together with a fatal `CAUSE`, once a session (R201, R203). -/
theorem afterFatal_inv {s : State} (h : s.Inv) (f : FatalFault) : (s.afterFatal f).Inv := by
  unfold State.afterFatal
  split
  · exact after_inv h _ _
  · obtain ⟨hc, hep, -, hrp⟩ := (inv_iff s).mp h
    exact (inv_iff _).mpr ⟨hc, hep, causeAgrees_of_fault f rfl rfl, hrp⟩

/-- An operation that ends without a fatal fault keeps the invariant. -/
theorem effect_inv {i : Instr} {s u : State} (h : s.Inv) (he : Effect i s u) : u.Inv := by
  obtain ⟨hc, hep, hst, hrp⟩ := (inv_iff s).mp h
  obtain ⟨⟨hcfg, -⟩, -, hust, huep, hurp, hucur⟩ := he
  refine (inv_iff u).mpr ⟨?_, ?_, ?_, ?_⟩
  · rw [hcfg]
    exact cursorEffect_ok hc hucur
  · rcases huep with e | hz
    · rwa [e]
    · exact hz
  · rcases hust with e | e | ⟨-, e⟩ <;> rw [e]
    · exact hst
    · exact hst
    · exact causeAgrees_of_no_fault rfl rfl
  · exact hurp.elim (fun e => e.trans hrp) id

/-- Every command that has a next state keeps the invariant. -/
theorem exec_inv {i : Instr} {s t : State} (h : s.Inv) (he : exec i s = .next t) : t.Inv := by
  obtain ⟨-, -, rfl⟩ | ⟨-, ⟨u, code, r, hu, -, rfl⟩ | ⟨f, rfl⟩⟩ := exec_cases he
  · exact after_inv h _ _
  · exact after_inv (effect_inv h hu) _ _
  · exact afterFatal_inv h f

/-- Settles O12: a step is a reset, a command or an illegal command, and each keeps the invariant; taking the command's
bytes from the input does not touch it. -/
theorem stepKeepsInvariant : Obligations.StepKeepsInvariant := by
  intro s t h hs
  obtain ⟨-, rfl⟩ | ⟨-, i, rest, -, he⟩ | ⟨-, why, rest, -, rfl⟩ := step_cases hs
  · exact resetBlock_inv s
  · exact exec_inv (s := { s with input := rest }) h he
  · exact afterFatal_inv (s := { s with input := rest }) h _

/-- Settles O11: the table is the reset state read field by field; the invariant holds for every parameter set. -/
theorem resetLeavesTableAndInvariant : Obligations.ResetLeavesTableAndInvariant :=
  ⟨rfl, rfl, rfl, rfl, fun c => ⟨resetWith_inv c, rfl⟩⟩

end Sys2Proof.Machine
end

section
/-!
PROOF. What a command outside INIT and LOAD does to the two pointers and to `contents` (R11, R12, R15, R40), read off
`CursorEffect`.
-/
namespace Sys2Proof.Machine

/-- The cursor after a command is one its operation can leave: being turned away, the answer and fault entry do not
touch it. -/
theorem exec_cursorEffect {i : Instr} {s t : State} (h : exec i s = .next t) : CursorEffect i s t.cursor := by
  obtain ⟨-, -, rfl⟩ | ⟨-, ⟨u, code, r, hu, -, rfl⟩ | ⟨f, rfl⟩⟩ := exec_cases h
  · exact .inl rfl
  · exact hu.cursor
  · obtain ⟨-, -, -, hcur, -⟩ := afterFatal_frame s f
    exact .inl hcur

/-- The commands that create no cursor are reads, which keep `contents` and `WBIT`, or the two writes, which keep the
read pointer (R15). -/
theorem cursorEffect_read_or_write {i : Instr} {s : State} {c : Cursor} (h : CursorEffect i s c) (hi : i.op ≠ .init)
    (hl : i.op ≠ .load) :
    (c.contents = s.cursor.contents ∧ c.wbit = s.cursor.wbit ∧ s.cursor.readPos ≤ c.readPos ∧
      (c = s.cursor ∨ i.op = .rdbits ∨ i.op = .rdbytes ∨ i.op = .decue ∨ i.op = .decse)) ∨
    ((c.rbyte = s.cursor.rbyte ∧ c.rbit = s.cursor.rbit) ∧
      ((i.op = .appbytes ∧ ∃ bytes, c.contents = s.cursor.contents.append bytes) ∨
        (i.op = .appbits ∧ ∃ bits : Bits, c = bits.foldl Cursor.appendBit s.cursor))) := by
  rcases h with rfl | ⟨hop, -⟩ | ⟨bytes, rfl, -⟩ | ⟨hop, n, -, rfl⟩ | ⟨n, rfl, rfl | ⟨hx, rfl⟩⟩ |
    ⟨bytes, rfl, -, rfl⟩ | ⟨bits, rfl, -, rfl⟩
  · exact .inl ⟨rfl, rfl, le_rfl, .inl rfl⟩
  · exact absurd hop hi
  · exact absurd rfl hl
  · exact .inl ⟨rfl, rfl, by simp, by tauto⟩
  · exact .inl ⟨alignRead_contents _, alignRead_wbit _, alignRead_readPos_le _, .inr (.inr (.inl rfl))⟩
  · exact .inl ⟨by rw [skipRun_contents, alignRead_contents], by rw [skipRun_wbit, alignRead_wbit],
      (alignRead_readPos_le _).trans (skipRun_readPos_le _ _ _ hx), .inr (.inr (.inl rfl))⟩
  · exact .inr ⟨⟨rfl, rfl⟩, .inl ⟨rfl, bytes, rfl⟩⟩
  · exact .inr ⟨appendBits_readPointer bits _, .inr ⟨rfl, bits, rfl⟩⟩

/-- Settles O20: the reads move the read pointer forward only and write nothing; the two writes leave it alone. -/
theorem pointersAreIndependentAndMonotone : Obligations.PointersAreIndependentAndMonotone := by
  intro i s t hi hl h
  rcases cursorEffect_read_or_write (exec_cursorEffect h) hi hl with ⟨hcont, hwbit, hpos, hread⟩ | ⟨⟨hbyte, hbit⟩, hw⟩
  · refine ⟨hpos, fun h1 h2 h3 h4 => ?_, fun _ _ => ⟨hcont, hwbit⟩⟩
    have hsame : t.cursor = s.cursor := by tauto
    exact ⟨by rw [hsame], by rw [hsame]⟩
  · refine ⟨by rw [Cursor.readPos, Cursor.readPos, hbyte, hbit], fun _ _ _ _ => ⟨hbyte, hbit⟩, fun h1 h2 => ?_⟩
    rcases hw with ⟨hop, -⟩ | ⟨hop, -⟩
    · exact absurd hop h1
    · exact absurd hop h2

/-- Settles O19: a read keeps `contents`, APPBYTES adds behind it, and APPBITS merges at most into the last byte. -/
theorem contentsChangeOnlyAtEnd : Obligations.ContentsChangeOnlyAtEnd := by
  intro i s t hi hl h
  rcases cursorEffect_read_or_write (exec_cursorEffect h) hi hl with
    ⟨hcont, -⟩ | ⟨-, ⟨-, bytes, hcont⟩ | ⟨hop, bits, hcur⟩⟩
  · rw [hcont]
    exact ⟨le_rfl, fun _ _ => rfl, fun _ _ _ => rfl⟩
  · have hkeep : ∀ a < s.cursor.contents.len, t.cursor.contents.byte? a = s.cursor.contents.byte? a := fun a ha => by
      rw [hcont, Memory_append_byte _ _ ha]
    exact ⟨by rw [hcont, Memory_append_len]; omega, fun a ha => hkeep a (by omega), fun _ => hkeep⟩
  · rw [hcur]
    obtain ⟨hlen, hkeep⟩ := appendBits_frame bits s.cursor
    exact ⟨hlen, hkeep, fun hw a ha => appendBits_frame_aligned bits _ (hw.resolve_left (not_not_intro hop)) ha⟩

end Sys2Proof.Machine
end

section
/-!
PROOF. The reset as an event (R220), and INIT, which leaves the reset state but for `CTRL` and `LAST` (R23).
-/
namespace Sys2Proof.Machine

/-- A requested reset is served before any command (R220). -/
theorem step_of_resetRequest {s : State} (h : s.resetRequest = true) : step s = .next (resetBlock s) := by
  simp only [step, fetch, h, if_true]

/-- INIT is served in every state, and its operation clears the session and the hidden state (R150, R156). -/
theorem exec_init (s : State) : exec .init s = .next ((clearHidden (newSession s [])).after .ok .none) := by
  rw [exec_eq, execute_served (.inr rfl)]
  rfl

/-- Settles O10: the step serves the request, and `resetBlock` writes the values of R23. -/
theorem resetRequestResetsBlock : Obligations.ResetRequestResetsBlock := by
  intro s h
  rw [step_of_resetRequest h]
  rfl

/-- Settles O22: the state a requested reset leaves is `resetBlock s`, and what INIT writes differs from it only in
`CTRL`, `LAST` and the host's side. -/
theorem initLeavesResetState : Obligations.InitLeavesResetState := by
  intro s
  refine ⟨_, step_of_resetRequest rfl, ?_⟩
  rw [exec_init]
  rfl

end Sys2Proof.Machine
end

section
/-!
PROOF. RDBITS on enough unread bits, and mixed-width reads of the same bits (R43, R97).
-/
namespace Sys2Proof.Machine

/-- RDBITS of a legal width, with that many bits unread, answers their value and moves the read pointer over them
(R97). -/
theorem exec_rdbits {s : State} {n : BitVec 8} (hf : s.status.fault = false) (hw : n.toNat ≤ s.cfg.valW)
    (hl : n.toNat ≤ s.cursor.unread.length) :
    exec (.rdbits n) s = .next
      ({ s with cursor := s.cursor.atPos (s.cursor.readPos + n.toNat) }.after .ok
        (.value (val (s.cursor.unread.take n.toNat)))) := by
  have hmax : ¬ s.cfg.nMax < n.toNat := Nat.not_lt.mpr hw
  rw [exec_served hf]
  simp [opEndOf, opRdbits, readBits_eq, hmax, hl]

/-- `execAll` runs the rest of the commands from where the first one ends. -/
theorem execAll_cons_of_next {i : Instr} {s t : State} (h : exec i s = .next t) (is : List Instr) :
    execAll (i :: is) s = execAll is t := by
  simp only [execAll, h]

/-- The first `a + b` bits as a number: the next `b` bits are its low part (R43). -/
theorem val_take_add {bits : Bits} {a b : Nat} (h : a + b ≤ bits.length) :
    val (bits.take (a + b)) = 2 ^ b * val (bits.take a) + val ((bits.drop a).take b) := by
  have hb : ((bits.drop a).take b).length = b := List.length_take_of_le (by rw [List.length_drop]; omega)
  rw [List.take_add, val_append, hb, Nat.mul_comm]

/-- Settles O33: the second read starts where the first one ended, so its bits are the unread bits behind the first `a`;
their values join as the halves of one `take`, and both ways move the pointer by `a + b`. -/
theorem mixedWidthReadsRegroup : Obligations.MixedWidthReadsRegroup := by
  intro s a b hf hab hw hl
  have hsum : (a + b).toNat = a.toNat + b.toNat := BitVec.toNat_add_of_lt hab
  have hfirst := exec_rdbits (n := a) hf (by omega) (by omega)
  have hrest : b.toNat ≤ (s.cursor.unread.drop a.toNat).length := by rw [List.length_drop]; omega
  refine ⟨s.cursor.atPos (s.cursor.readPos + (a.toNat + b.toNat)), val (s.cursor.unread.take a.toNat),
    val ((s.cursor.unread.drop a.toNat).take b.toNat), ?_, ?_, ?_⟩
  · calc val ((s.cursor.unread.drop a.toNat).take b.toNat)
        < 2 ^ ((s.cursor.unread.drop a.toNat).take b.toNat).length := val_lt _
      _ = 2 ^ b.toNat := by rw [List.length_take_of_le hrest]
  · have hsecond := exec_rdbits (n := b)
      (s := { s with cursor := s.cursor.atPos (s.cursor.readPos + a.toNat) }.after .ok
        (.value (val (s.cursor.unread.take a.toNat)))) hf (show b.toNat ≤ s.cfg.valW by omega)
      (by rwa [after_cursor, unread_atPos])
    rw [execAll_cons_of_next hfirst, execAll_cons_of_next hsecond, after_cursor, unread_atPos, atPos_readPos,
      Nat.add_assoc]
    rfl
  · rw [exec_rdbits hf (by omega) (by omega), hsum, val_take_add hl]

end Sys2Proof.Machine
end

section
/-!
PROOF. The two round trips between a command and its bytes (R77 to R80, R82): the command word selects the row of its
operation, and the operand readers undo the operand bytes both ways.
-/
namespace Sys2Proof.Machine

/-- A legal word is decoded by its row (R82). -/
theorem decode_of_matches {cw : BitVec 32} {r : OpcodeRow} (hr : r ∈ opcodeTable) (hm : cw &&& r.mask = r.pattern)
    (c : Config) (bs : Bytes) : decode c (beBytes 4 cw.toNat ++ bs) = decodeRow c r cw bs := by
  rw [decode_word, (selectRow_eq_some_iff cw r).mpr ⟨hr, hm⟩]

/-- A command word built from an opcode and a legal `W` field is decoded by the row of its operation (R82). -/
theorem decode_commandWord {op : Op} {w : BitVec 8} (hw : op.usesW = true ∨ w = 0#8) (c : Config) (bs : Bytes) :
    ∃ r, r.op = op ∧ decode c (commandWordBytes op.opc w ++ bs) = decodeRow c r (commandWord op.opc w) bs := by
  obtain ⟨r, hr, rfl⟩ := opcodeTable_row op
  exact ⟨r, rfl, decode_of_matches hr (commandWord_matches hr hw) c bs⟩

/-- Legal operands decide: the decoder gives the command they make. -/
theorem decodeRow_of_ok {c : Config} {r : OpcodeRow} {cw : BitVec 32} {bs rest : Bytes} {i : Instr}
    (h : takeOperands c r.op (wOf cw) bs = some (.ok i, rest)) : decodeRow c r cw bs = .command i rest := by
  rw [decodeRow, h]

/-- Settles O2: the command word selects the row of the command's operation, and the operand readers give its operands
back. -/
theorem decodeInvertsEncode : Obligations.DecodeInvertsEncode := by
  intro c i rest hc hi
  obtain ⟨r, hop, hdec⟩ := decode_commandWord (usesW_cases i) c (i.operandBytes c ++ rest)
  rw [encode_eq, List.append_assoc, hdec]
  apply decodeRow_of_ok
  rw [hop, wOf_commandWord]
  exact takeOperands_operandBytes hc hi rest

/-- Only legal operands make a command. -/
theorem decodeRow_eq_command_iff {c : Config} {r : OpcodeRow} {cw : BitVec 32} {bs rest : Bytes} {i : Instr} :
    decodeRow c r cw bs = .command i rest ↔ takeOperands c r.op (wOf cw) bs = some (.ok i, rest) := by
  refine ⟨fun h => ?_, decodeRow_of_ok⟩
  unfold decodeRow at h
  split at h
  · cases h
  · cases h
    assumption
  · cases h

/-- A word that matches no row makes no command (R83). -/
theorem decodeIllegal_ne_command (c : Config) (cw : BitVec 32) (bs : Bytes) (i : Instr) (rest : Bytes) :
    decodeIllegal c cw bs ≠ .command i rest := by
  unfold decodeIllegal
  split
  · simp
  · split <;> simp

/-- Bytes that hold a command are a word that matches a row, and legal operands of that row (R77, R82). -/
theorem decode_eq_command {c : Config} {bs rest : Bytes} {i : Instr} (h : decode c bs = .command i rest) :
    ∃ r ∈ opcodeTable, ∃ (cw : BitVec 32) (operands : Bytes), cw &&& r.mask = r.pattern ∧
      bs = beBytes 4 cw.toNat ++ operands ∧ takeOperands c r.op (wOf cw) operands = some (.ok i, rest) := by
  cases ht : takeBytes 4 bs with
  | none => simp [decode, ht] at h
  | some p =>
    obtain ⟨hlen, rfl⟩ := (takeBytes_eq_some_iff _ _ p.1 p.2).mp ht
    rw [← beBytes_of_word hlen, decode_word] at h
    cases hs : selectRow (BitVec.ofNat 32 (beVal p.1)) with
    | none =>
      rw [hs] at h
      exact absurd h (decodeIllegal_ne_command _ _ _ _ _)
    | some r =>
      rw [hs] at h
      obtain ⟨hr, hm⟩ := (selectRow_eq_some_iff _ r).mp hs
      exact ⟨r, hr, _, p.2, hm, by rw [beBytes_of_word hlen], decodeRow_eq_command_iff.mp h⟩

/-- The four operations with a `W` field (R82). -/
theorem usesW_iff (op : Op) : op.usesW = true ↔ op = .rdreg ∨ op = .wrctrl ∨ op = .rdbits ∨ op = .encf := by
  cases op <;> simp [Op.usesW]

/-- Settles O3: the word is the command's own since it matches its row, and the operand readers accept only the
command's own operand bytes. -/
theorem encodeInvertsDecode : Obligations.EncodeInvertsDecode := by
  intro c bs i rest hc h
  obtain ⟨r, hr, cw, operands, hm, rfl, hops⟩ := decode_eq_command h
  obtain ⟨hcw, hw⟩ := matches_fields hr hm
  rw [usesW_iff, or_assoc, or_assoc, or_assoc] at hw
  obtain ⟨hop, hfield, hwf, rfl⟩ := takeOperands_ok hc hw hops
  refine ⟨hwf, ?_⟩
  rw [encode_eq, hop, hfield, commandWordBytes, ← hcw, List.append_assoc]

/-- Settles O1: each of the written commands is decoded byte by byte. -/
theorem writtenWordsDecode : Obligations.WrittenWordsDecode := by
  unfold Obligations.WrittenWordsDecode
  decide

end Sys2Proof.Machine
end

section
/-!
PROOF. Illegal commands (R83, R84, R196): words that match no row, pad bits and unused high bits that are not zero. Each
is taken whole and answered as a fatal fault.
-/
namespace Sys2Proof.Machine

/-- Settles O4: a word that matches two rows selects both. -/
theorem opcodeRowsDoNotOverlap : Obligations.OpcodeRowsDoNotOverlap := by
  intro cw r₁ r₂ hr₁ hr₂ hm₁ hm₂
  have h₁ : selectRow cw = some r₁ := (selectRow_eq_some_iff cw r₁).mpr ⟨hr₁, hm₁⟩
  have h₂ : selectRow cw = some r₂ := (selectRow_eq_some_iff cw r₂).mpr ⟨hr₂, hm₂⟩
  exact Option.some.inj (h₁.symm.trans h₂)

/-- A word that matches no row is taken as an illegal command. -/
theorem decode_of_no_match {cw : BitVec 32} (h : ∀ r ∈ opcodeTable, cw &&& r.mask ≠ r.pattern) (c : Config)
    (bs : Bytes) : decode c (beBytes 4 cw.toNat ++ bs) = decodeIllegal c cw bs := by
  rw [decode_word, (selectRow_eq_none_iff cw).mpr h]

/-- A word that matches a row carries the row's opcode (R82). -/
theorem opcOf_eq_of_matches {cw : BitVec 32} {r : OpcodeRow} (hr : r ∈ opcodeTable)
    (hm : cw &&& r.mask = r.pattern) : opcOf r.pattern = opcOf cw := by
  rw [(opcodeTable_rows r hr).1, (matches_fields hr hm).1, opcOf_commandWord, opcOf_commandWord]

/-- With an unassigned opcode the illegal command is the word alone (R84). -/
theorem decodeIllegal_unassigned {cw : BitVec 32} (h : ∀ r ∈ opcodeTable, opcOf r.pattern ≠ opcOf cw) (c : Config)
    (bs : Bytes) : decodeIllegal c cw bs = .illegal (wordFault cw) bs := by
  have hrow : opcodeRow cw = none := by simpa [opcodeRow, List.find?_eq_none] using h
  rw [decodeIllegal, hrow]

/-- The row that carries an assigned opcode is the one that gives the word its length (R84). -/
theorem opcodeRow_of_opcOf {cw : BitVec 32} {r : OpcodeRow} (hr : r ∈ opcodeTable)
    (h : opcOf r.pattern = opcOf cw) : opcodeRow cw = some r := by
  rw [(opcodeTable_rows r hr).1, opcOf_commandWord] at h
  obtain ⟨r', hr', hop, hrow⟩ := opcodeRow_eq_some h.symm
  rw [hrow, opcodeTable_op_injective r' hr' r hr hop]

/-- With an assigned opcode bytes of its format's length are taken too, whatever they say (R84). -/
theorem decodeIllegal_assigned {cw : BitVec 32} {r : OpcodeRow} (hr : r ∈ opcodeTable)
    (h : opcOf r.pattern = opcOf cw) {c : Config} {operands : Bytes} (hf : FormatBytes c r.format operands)
    (rest : Bytes) : decodeIllegal c cw (operands ++ rest) = .illegal (wordFault cw) rest := by
  obtain ⟨x, hx⟩ := takeOperands_formatBytes hr (wOf cw) hf rest
  rw [decodeIllegal, opcodeRow_of_opcOf hr h]
  simp only [hx]

/-- Settles O5: the decoder finds the word illegal and takes its length, and the step answers the fault. -/
theorem unmatchedWordIsIllegal : Obligations.UnmatchedWordIsIllegal := by
  refine ⟨fun s cw rest hreset hopc hin => ?_, fun s cw r operands rest hreset hno hr hopc hf hin => ?_⟩
  · have hno : ∀ r ∈ opcodeTable, cw &&& r.mask ≠ r.pattern :=
      fun r hr hm => hopc r hr (opcOf_eq_of_matches hr hm)
    apply step_of_illegal hreset
    rw [hin, decode_of_no_match hno]
    exact decodeIllegal_unassigned hopc _ _
  · apply step_of_illegal hreset
    rw [hin, List.append_assoc, decode_of_no_match hno]
    exact decodeIllegal_assigned hr hopc hf rest

/-- The four bytes of a command word are its opcode, its `W` field and two zeros (R77). -/
theorem commandWordBytes_eq (opc w : BitVec 8) : commandWordBytes opc w = [opc, w, 0#8, 0#8] := by
  have hval : (commandWord opc w).toNat = beVal [opc, w, 0#8, 0#8] := by
    rw [commandWord_toNat]
    simp [beVal]
    omega
  rw [commandWordBytes, hval]
  exact beBytes_beVal [opc, w, 0#8, 0#8]

/-- A legal word with illegal operands is taken whole and answered as a fatal fault (R83, R196). -/
theorem step_of_illegal_operands {s : State} {op : Op} {w : BitVec 8} {bs rest : Bytes} {why : IllegalReason}
    (hreset : s.resetRequest = false) (hw : op.usesW = true ∨ w = 0#8)
    (hops : takeOperands s.cfg op w bs = some (.error why, rest)) (hin : s.input = [op.opc, w, 0#8, 0#8] ++ bs) :
    step s = .next (State.afterFatal { s with input := rest } .illegalCommand) := by
  obtain ⟨r, rfl, hdec⟩ := decode_commandWord hw s.cfg bs
  apply step_of_illegal (why := why) hreset
  rw [hin, ← commandWordBytes_eq, hdec, decodeRow, wOf_commandWord, hops]

/-- An illegal operand makes its command illegal. -/
theorem to_of_error {α : Type} {t : Taken α} {why : IllegalReason} {rest : Bytes} (h : t = some (.error why, rest))
    (mk : α → Instr) : t.to mk = some (.error why, rest) := by
  subst h
  rfl

/-- A one among the pad bits of a bit payload (R80). -/
theorem takePayloadBits_padBits {n k : Nat} {payload : Bytes} (hn : n < 2 ^ 32)
    (hl : payload.length = (n + 7) / 8) (hk : n ≤ k) (hb : (bitsOf payload)[k]? = some true) (rest : Bytes) :
    takePayloadBits (beBytes 4 n ++ (payload ++ rest)) = some (.error .padBits, rest) := by
  have hpad : true ∈ (bitsOf payload).drop n :=
    List.mem_of_getElem? (i := k - n) (by rwa [List.getElem?_drop, Nat.add_sub_cancel' hk])
  have hcount : takeCount (beBytes 4 n ++ (payload ++ rest)) = some (n, payload ++ rest) := takeCount_append hn _
  simp [takePayloadBits, hcount, takeBytes_append hl, hpad]

/-- Settles O6: the payload reader rejects the pad bit, for the two commands that carry a bit payload. -/
theorem nonZeroPadBitsAreIllegal : Obligations.NonZeroPadBitsAreIllegal := by
  intro s opc n k payload rest hreset hopc hn hl hk hb hin
  have hpad := takePayloadBits_padBits hn hl hk hb rest
  rw [List.append_assoc, List.append_assoc] at hin
  rcases hopc with rfl | rfl
  · exact step_of_illegal_operands (op := .appbits) hreset (.inr rfl) (to_of_error hpad _) hin
  · exact step_of_illegal_operands (op := .pack) hreset (.inr rfl) (to_of_error hpad _) hin

/-- The value words of format VV with a one among the unused high bits of either (R79, log 11). -/
theorem takeValues_highBits {c : Config} {word₁ word₂ : Bytes} {k : Nat} (hl₁ : word₁.length = (c.valW + 7) / 8)
    (hl₂ : word₂.length = (c.valW + 7) / 8) (hk : k + c.valW < 8 * word₁.length)
    (hb : (bitsOf word₁)[k]? = some true ∨ (bitsOf word₂)[k]? = some true) (rest : Bytes) :
    takeValues c (word₁ ++ (word₂ ++ rest)) = some (.error .valueHighBits, rest) := by
  have htake : ∀ {word : Bytes}, word.length = (c.valW + 7) / 8 → ∀ bs, takeValue c (word ++ bs) =
      some (if beVal word < 2 ^ c.valW then .ok (beVal word) else .error .valueHighBits, bs) := by
    intro word hl bs
    rw [takeValue, Config.valBytes, takeBytes_append hl]
  rcases hb with hb | hb
  · simp only [takeValues, takeValue_highBits hl₁ hk hb, htake hl₂]
    rfl
  · rw [hl₁, ← hl₂] at hk
    simp only [takeValues, htake hl₁, takeValue_highBits hl₂ hk hb]
    split <;> rfl

/-- Settles O7: the value reader rejects the high bit, for the five commands of format V and for either word of
WIDTHS. -/
theorem valueHighBitsAreIllegal : Obligations.ValueHighBitsAreIllegal := by
  refine ⟨fun s opc w k word rest hreset hopc hl hk hb hin => ?_,
    fun s k word₁ word₂ rest hreset hl₁ hl₂ hk hb hin => ?_⟩
  · have hbad := takeValue_highBits hl hk hb rest
    rw [List.append_assoc] at hin
    rcases hopc with rfl | ⟨rfl | rfl | rfl | rfl, hw⟩
    · exact step_of_illegal_operands (op := .encf) hreset (.inl rfl) (to_of_error hbad _) hin
    · exact step_of_illegal_operands (op := .rdbytes) hreset (.inr hw) (to_of_error hbad _) hin
    · exact step_of_illegal_operands (op := .encue) hreset (.inr hw) (to_of_error hbad _) hin
    · exact step_of_illegal_operands (op := .encse) hreset (.inr hw) (to_of_error hbad _) hin
    · exact step_of_illegal_operands (op := .widthu) hreset (.inr hw) (to_of_error hbad _) hin
  · have hbad := takeValues_highBits hl₁ hl₂ hk hb rest
    rw [List.append_assoc, List.append_assoc] at hin
    exact step_of_illegal_operands (op := .widths) hreset (.inr rfl) (to_of_error hbad _) hin

end Sys2Proof.Machine
end

section
/-!
PROOF. The bytes of a response (R81).
-/
namespace Sys2Proof.Machine

/-- The first byte of a response word: `STAT` above `KIND` (R81). -/
theorem nibbles_eq (stat kind : BitVec 4) :
    (stat ++ kind : BitVec 8) = BitVec.ofNat 8 (16 * stat.toNat + kind.toNat) := by
  apply BitVec.eq_of_toNat_eq
  rw [BitVec.toNat_append, ← Nat.shiftLeft_add_eq_or_of_lt kind.isLt, Nat.shiftLeft_eq, BitVec.toNat_ofNat]
  omega

/-- The four bytes of a response word: `STAT` and `KIND`, then zeros (R81). -/
theorem responseWord_bytes (r : Response) :
    beBytes 4 r.word.toNat =
      [BitVec.ofNat 8 (16 * r.status.code.toNat + r.result.kind.toNat), 0#8, 0#8, 0#8] := by
  have hword : r.word = commandWord (r.status.code ++ r.result.kind : BitVec 8) 0#8 := by
    apply BitVec.eq_of_toNat_eq
    rw [commandWord_toNat, Response.word]
    show (r.status.code ++ r.result.kind ++ 0#24 : BitVec (4 + 4 + 24)).toNat = _
    rw [BitVec.toNat_append, ← Nat.shiftLeft_add_eq_or_of_lt (BitVec.isLt _), Nat.shiftLeft_eq]
    simp
  rw [hword, ← nibbles_eq]
  exact commandWordBytes_eq _ _

/-- Settles O8: the response word byte by byte, then what R81 puts behind it for each kind of result. -/
theorem responseBytesLayout : Obligations.ResponseBytesLayout := by
  refine ⟨rfl, fun c code w bits bytes => ?_⟩
  simp only [Response.encode, responseWord_bytes]
  refine ⟨rfl, rfl, ?_, ?_⟩
  · rw [List.append_assoc]; rfl
  · rw [List.append_assoc]; rfl

end Sys2Proof.Machine
end

section
/-!
PROOF. The Exp-Golomb codes (R62 to R67): what ENCUE and ENCSE answer, and what DECUE reads.
-/
namespace Sys2Proof.Machine

/-- ENCUE answers the unsigned code and changes nothing (R113). -/
theorem exec_encue {s : State} (hf : s.status.fault = false) (value : Nat) :
    exec (.encue value) s = .next (s.after .ok (.bits (ue value))) := by
  rw [exec_served hf]
  rfl

/-- ENCSE answers the unsigned code of the code number and changes nothing (R114). -/
theorem exec_encse {s : State} (hf : s.status.fault = false) (value : Int) :
    exec (.encse value) s = .next (s.after .ok (.bits (ue (codenum value)))) := by
  rw [exec_served hf]
  rfl

/-- Settles O37: the suffix is the `L-1` low bits of `value + 1`. -/
theorem encueReturnsExpGolombCode : Obligations.EncueReturnsExpGolombCode := by
  intro s value L hf h1 hlow hhigh
  have hsuffix : value + 1 - 2 ^ (L - 1) < 2 ^ (L - 1) := by
    have hpow : 2 ^ L = 2 * 2 ^ (L - 1) := by rw [← pow_succ', Nat.sub_add_cancel h1]
    omega
  refine ⟨bin (value + 1 - 2 ^ (L - 1)) (L - 1), bin_length _ _, val_bin_of_lt hsuffix, ?_⟩
  rw [exec_encue hf, ue_eq h1 hlow hhigh, zeros, List.append_assoc, List.singleton_append]

/-- Settles O38: both commands answer the code of `codenum v`. -/
theorem encseReturnsCodeOfCodeNumber : Obligations.EncseReturnsCodeOfCodeNumber := by
  intro s v k hf hk
  have hcode : codenum v = k := by
    rcases hk with ⟨hv, hk⟩ | ⟨hv, hk⟩
    · rw [codenum_nonpos hv]; omega
    · rw [codenum_pos hv]; omega
  exact ⟨ue k, exec_encue hf k, by rw [exec_encse hf, hcode]⟩

/-- Settles O39: the branches of `signedof`, and the two laws of the mappings. -/
theorem signedMappingIsBijective : Obligations.SignedMappingIsBijective := by
  refine ⟨fun k hk => ?_, fun k hk => ?_, signedof_codenum_eq, codenum_signedof_eq⟩
  · rw [signedof_odd hk]; norm_num
  · rw [signedof_even hk]; norm_num

/-- DECUE on a whole code within the limit answers its code number if that fits a value word, and consumes the code
either way (R115, R116, R193). -/
theorem exec_decue_code {s : State} {z : Nat} {suffix rest : Bits} (hf : s.status.fault = false)
    (hz : z ≤ s.cfg.valW) (hs : suffix.length = z) (hu : s.cursor.unread = zeros z ++ true :: (suffix ++ rest)) :
    exec .decue s = finish s
      (if 2 ^ s.cfg.valW ≤ 2 ^ z - 1 + val suffix then
        .signal { s with cursor := s.cursor.atPos (s.cursor.readPos + (2 * z + 1)) } .decodeRange
      else .ok { s with cursor := s.cursor.atPos (s.cursor.readPos + (2 * z + 1)) }
        (.value (2 ^ z - 1 + val suffix))) := by
  rw [exec_served hf, opEndOf, opDecue, decodeCodeNum_code (lz := s.cfg.lzMax) hz hs hu]

/-- Settles O42: the cursor moves over the code's `2z + 1` bits, and the range test decides the answer. -/
theorem decueReadsOneCode : Obligations.DecueReadsOneCode := by
  intro s z k suffix rest hf hz hs hu hk
  have hu' : s.cursor.unread = zeros z ++ true :: (suffix ++ rest) := by rw [hu, zeros]; simp
  have hexec := exec_decue_code hf hz hs hu'
  rw [← hk] at hexec
  refine ⟨s.cursor.atPos (s.cursor.readPos + (2 * z + 1)), rfl, rfl, atPos_readPos _ _, fun hlt => ?_,
    fun hge => ?_⟩
  · rw [hexec, if_neg (Nat.not_le.mpr hlt), finish_ok]
  · rw [hexec, if_pos hge, finish_signal, Signal.status]

end Sys2Proof.Machine
end

section
/-!
PROOF. The escaped form that EPINS returns (R70, R71): it is the one-counter form of R141, whose laws give its
properties.
-/
namespace Sys2Proof.Machine

@[simp] theorem afterFault_lastResult (s : State) (f : FatalFault) : (s.afterFault f).lastResult = .none := by
  simp [State.lastResult]

@[simp] theorem afterFatal_lastResult (s : State) (f : FatalFault) : (s.afterFatal f).lastResult = .none := by
  unfold State.afterFatal
  split <;> simp

/-- EPINS of a payload whose escaped form can be sent answers that form (R140). -/
theorem exec_epins {s : State} {bytes : Bytes} (hf : s.status.fault = false)
    (hl : (counterEscape 0 bytes).length < 2 ^ 32) :
    exec (.epins bytes) s = .next
      ({ s with ep := (epRun ⟨false, false⟩ bytes).1 }.after .ok (.bytes (counterEscape 0 bytes))) := by
  have hshort : resultTooLong (counterEscape 0 bytes).length = false := (resultTooLong_eq_false_iff _).mpr hl
  rw [exec_served hf, opEndOf, opEpins, epRun_zero, hshort]
  rfl

/-- Bytes that EPINS returns are the escaped form of its payload, whatever the state. -/
theorem epins_result {s t : State} {bytes out : Bytes} (h : exec (.epins bytes) s = .next t)
    (hout : t.lastResult = .bytes out) : out = counterEscape 0 bytes := by
  cases hf : s.status.fault with
  | true =>
    rw [exec_eq, execute_refused hf rfl, Host.Outcome.next.injEq] at h
    simp [← h] at hout
  | false =>
    rcases Nat.lt_or_ge (counterEscape 0 bytes).length (2 ^ 32) with hl | hl
    · rw [exec_epins hf hl, Host.Outcome.next.injEq] at h
      simpa [← h] using hout.symm
    · have hlong : resultTooLong (counterEscape 0 bytes).length = true := (resultTooLong_eq_true_iff _).mpr hl
      rw [exec_served hf, opEndOf, opEpins, epRun_zero, hlong, if_pos rfl, finish_fatal,
        Host.Outcome.next.injEq] at h
      simp [← h] at hout

/-- Settles O52: the bytes are the escaped form, and dropping its escapes gives the payload back. -/
theorem unescapeInvertsEscape : Obligations.UnescapeInvertsEscape := by
  intro s t bytes out h hout
  rw [epins_result h hout]
  exact unescape_counterEscape rfl bytes

/-- Settles O51: the escaped form holds no start code. -/
theorem escapedFormHoldsNoStartCode : Obligations.EscapedFormHoldsNoStartCode := by
  intro s t bytes out h hout
  rw [epins_result h hout]
  exact startCodeFree_counterEscape (zc := 0) (Nat.zero_le 2) bytes

/-- Settles O53: the bounds are those of the escaped form, and the upper one says that it can be sent. -/
theorem escapedLengthBound : Obligations.EscapedLengthBound := by
  intro s bytes hf _ hfits
  obtain ⟨hlow, hhigh⟩ := counterEscape_length (Nat.zero_le 2) bytes
  refine ⟨_, _, exec_epins hf (by omega), after_lastResult _ _ _, hlow, hhigh, fun hzeros => ?_⟩
  conv_lhs => rw [hzeros]
  exact counterEscape_zeros_length (Nat.zero_le 2) _

end Sys2Proof.Machine
end

section
/-!
PROOF. The pseudo-instructions (R86): the first command, then the second with what the first one returned.
-/
namespace Sys2Proof.Machine

/-- An expansion of one command is that command. -/
theorem run_of_single {p : Pseudo} (h : ∀ t, p.second t = none) (s : State) : p.run s = exec p.first s := by
  unfold Pseudo.run
  cases exec p.first s <;> simp [h]

/-- An expansion of two commands runs the second where the first one ended. -/
theorem run_of_next {p : Pseudo} {i : Instr} {s t : State} (h : exec p.first s = .next t)
    (hi : p.second t.lastResult = some i) : p.run s = exec i t := by
  simp only [Pseudo.run, h, hi]

/-- Work commands are turned away while `FAULT = 1` (R156). -/
theorem exec_faulted {s : State} (hf : s.status.fault = true) {i : Instr} (hi : servedInFault i.op = false) :
    exec i s = .next (s.after .faulted .none) := by
  rw [exec_eq, execute_refused hf hi]

/-- When the session is over after the first command, the second is issued without a payload and turned away (R198). -/
theorem run_of_fault {p : Pseudo} {i : Instr} {s t : State} (h : exec p.first s = .next t)
    (hf : t.status.fault = true) (hr : t.lastResult = .none) (hi : p.second .none = some i)
    (hop : servedInFault i.op = false) : p.run s = .next (t.after .faulted .none) := by
  rw [run_of_next h (by rwa [hr])]
  exact exec_faulted hf hop

/-- Both commands of an expansion are turned away while `FAULT = 1` (R156). -/
theorem run_faulted {p : Pseudo} {i : Instr} {s : State} (hf : s.status.fault = true)
    (hfirst : servedInFault p.first.op = false) (hi : p.second .none = some i) (hop : servedInFault i.op = false) :
    p.run s = .next ((s.after .faulted .none).after .faulted .none) :=
  run_of_fault (exec_faulted hf hfirst) hf (after_lastResult _ _ _) hi hop

/-- A first command that returns bits hands them to APPBITS. -/
theorem run_of_bits {p : Pseudo} {s u : State} {code : StatusCode} {bits : Bits}
    (h : exec p.first s = .next (u.after code (.bits bits))) (hp : p.second (.bits bits) = some (.appbits bits)) :
    ∃ (bits : Bits) (t : State), exec p.first s = .next t ∧ t.lastResult = .bits bits ∧
      p.run s = exec (.appbits bits) t :=
  ⟨bits, _, h, after_lastResult _ _ _, run_of_next h (by rwa [after_lastResult])⟩

/-- PACK answers the layout of its bits (R130). -/
theorem exec_pack {s : State} (hf : s.status.fault = false) (bits : Bits) :
    exec (.pack bits) s = .next ({ s with rp := ⟨0#8, 0⟩ }.after .ok (.bytes (bytesOf bits))) := by
  rw [exec_served hf, opEndOf, opPack, packRun_zero]
  rfl

/-- ENCF of a width above `N_MAX` is illegal (R111). -/
theorem exec_encf_wide {s : State} {width : BitVec 8} (hf : s.status.fault = false) (hw : s.cfg.valW < width.toNat)
    (value : Nat) : exec (.encf width value) s = .next (s.afterFault .illegalCommand) := by
  rw [exec_served hf, opEndOf, opEncf, Config.nMax, if_pos hw, finish_fatal, afterFatal_of_no_fault _ hf]

/-- ENCF of a value that fits answers its bits (R111). -/
theorem exec_encf_fits {s : State} {width : BitVec 8} {value : Nat} (hf : s.status.fault = false)
    (hw : width.toNat ≤ s.cfg.valW) (hv : value < 2 ^ width.toNat) :
    exec (.encf width value) s = .next (s.after .ok (.bits (bin value width.toNat))) := by
  rw [exec_served hf, opEndOf, opEncf, Config.nMax, if_neg (Nat.not_lt.mpr hw), if_pos hv, finish_ok]

/-- ENCF of a value that does not fit at `STRICT = 1` is fatal (R112). -/
theorem exec_encf_strict {s : State} {width : BitVec 8} {value : Nat} (hf : s.status.fault = false)
    (hw : width.toNat ≤ s.cfg.valW) (hv : 2 ^ width.toNat ≤ value) (hs : s.ctrl.strict = true) :
    exec (.encf width value) s = .next (s.afterFault .encodingOverflow) := by
  rw [exec_served hf, opEndOf, opEncf, Config.nMax, if_neg (Nat.not_lt.mpr hw), if_neg (Nat.not_lt.mpr hv), if_pos hs,
    finish_fatal, afterFatal_of_no_fault _ hf]

/-- ENCF of a value that does not fit at `STRICT = 0` answers its low bits with the warning (R112). -/
theorem exec_encf_lax {s : State} {width : BitVec 8} {value : Nat} (hf : s.status.fault = false)
    (hw : width.toNat ≤ s.cfg.valW) (hv : 2 ^ width.toNat ≤ value) (hs : s.ctrl.strict = false) :
    exec (.encf width value) s = .next
      ({ s with status := s.status.withOverflow }.after .overflowWarning
        (.bits (bin (value % 2 ^ width.toNat) width.toNat))) := by
  rw [exec_served hf, opEndOf, opEncf, Config.nMax, if_neg (Nat.not_lt.mpr hw), if_neg (Nat.not_lt.mpr hv),
    if_neg (by simp [hs]), finish_warning]

/-- PUTF whose ENCF returns bits, with or without the warning (R86, R112). -/
theorem run_putf_bits {s : State} {width : BitVec 8} {value : Nat} (hf : s.status.fault = false)
    (hw : width.toNat ≤ s.cfg.valW) (hv : value < 2 ^ width.toNat ∨ s.ctrl.strict = false) :
    ∃ (code : Bits) (t : State), exec (.encf width value) s = .next t ∧ t.lastResult = .bits code ∧
      (Pseudo.putf value width).run s = exec (.appbits code) t := by
  rcases Nat.lt_or_ge value (2 ^ width.toNat) with hlt | hge
  · exact run_of_bits (p := .putf value width) (exec_encf_fits hf hw hlt) rfl
  · have hlax : s.ctrl.strict = false := hv.resolve_left (Nat.not_lt.mpr hge)
    exact run_of_bits (p := .putf value width) (exec_encf_lax hf hw hge hlax) rfl

/-- PUTF whose ENCF is fatal (R86, R198). -/
theorem run_putf_fatal {s : State} {width : BitVec 8} {value : Nat} {f : FatalFault}
    (h : exec (.encf width value) s = .next (s.afterFault f)) :
    (Pseudo.putf value width).run s = .next ((s.afterFault f).after .faulted .none) :=
  run_of_fault (p := .putf value width) h rfl (afterFault_lastResult _ _) rfl rfl

/-- Settles O55: each expansion is run from what its first command answers, and every command of it is turned away
while `FAULT = 1`. -/
theorem pseudoInstructionsExpand : Obligations.PseudoInstructionsExpand := by
  refine fun s => ⟨fun hf => ⟨?_, ?_, ?_, ?_, ?_, ?_⟩, fun hf => ⟨?_, ?_, ?_, ?_, ?_, ?_⟩⟩
  · exact fun n => run_of_single (p := .decf n) (fun _ => rfl) s
  · exact fun bits => run_of_single (p := .packt bits) (fun _ => rfl) s
  · exact fun bits => ⟨_, _, exec_pack hf _, after_lastResult _ _ _,
      run_of_next (p := .rbsp bits) (exec_pack hf _) (by rw [after_lastResult]; rfl)⟩
  · exact fun value => run_of_bits (p := .putue value) (exec_encue hf value) rfl
  · exact fun value => run_of_bits (p := .putse value) (exec_encse hf value) rfl
  · refine fun value width => ⟨run_putf_bits hf, fun hw hv hs => ?_, fun hw => ?_⟩
    · exact run_putf_fatal (exec_encf_strict hf hw hv hs)
    · exact run_putf_fatal (exec_encf_wide hf hw value)
  · exact fun n => (run_of_single (p := .decf n) (fun _ => rfl) s).trans (exec_faulted hf rfl)
  · exact fun bits => (run_of_single (p := .packt bits) (fun _ => rfl) s).trans (exec_faulted hf rfl)
  · exact fun bits => run_faulted (p := .rbsp bits) hf rfl rfl rfl
  · exact fun value => run_faulted (p := .putue value) hf rfl rfl rfl
  · exact fun value => run_faulted (p := .putse value) hf rfl rfl rfl
  · exact fun value width => run_faulted (p := .putf value width) hf rfl rfl rfl

end Sys2Proof.Machine
end

section
/-!
PROOF. APPBYTES and APPBITS (R91 to R93): what they append behind the write pointer, and the capacity test before it
(R50, R92).
-/
namespace Sys2Proof.Machine

/-- An operation that raises a fatal fault with `FAULT = 0` enters it (R201). -/
theorem exec_fatal {i : Instr} {s : State} {f : FatalFault} (hf : s.status.fault = false)
    (h : opEndOf i s = .fatal f) : exec i s = .next (s.afterFault f) := by
  rw [exec_served hf, h, finish_fatal, afterFatal_of_no_fault _ hf]

/-- The capacity test of APPBITS in bits, on a cursor that meets R21 (R92, R50). -/
theorem newBytes_le_iff_of_ok {cfg : Config} {c : Cursor} (h : c.Ok cfg) (n cap : Nat) :
    c.contents.len + c.newBytes n ≤ cap ↔ c.writePos + n ≤ 8 * cap := by
  obtain ⟨-, -, hlen, -⟩ := h
  exact newBytes_le_iff hlen n cap

/-- `CAP` leaves room for `n` more bits behind the write pointer (R50). -/
def Cursor.RoomFor (c : Cursor) (cfg : Config) (n : Nat) : Prop :=
  ∀ cap, cfg.cap = some cap → c.writePos + n ≤ 8 * cap

/-- The capacity test of APPBITS (R92) asks for that room. -/
theorem roomFor_iff {cfg : Config} {c : Cursor} (h : c.Ok cfg) (n : Nat) :
    c.RoomFor cfg n ↔ Config.exceedsCap cfg (c.contents.len + c.newBytes n) = false := by
  simp only [Cursor.RoomFor, exceedsCap_eq_false_iff, newBytes_le_iff_of_ok h]

theorem roomFor_mono {cfg : Config} {c : Cursor} {m n : Nat} (h : c.RoomFor cfg n) (hmn : m ≤ n) :
    c.RoomFor cfg m := fun cap hcap => (Nat.add_le_add_left hmn _).trans (h cap hcap)

/-- The write pointer stands behind the bits laid out at the end of `contents` (R14, R15). -/
theorem writePos_of_layout {c : Cursor} {body : Bytes} {h : Bits} (hc : c.contents.bytes = body ++ bytesOf h)
    (hw : c.wbit.val = h.length % 8) : c.writePos = 8 * body.length + h.length := by
  have hlen : c.contents.len = body.length + (h.length + 7) / 8 := by
    rw [Memory.len, hc, List.length_append, bytesOf_length]
  rw [Cursor.writePos, hlen, hw]
  split <;> omega

/-- APPBITS in the terms of R93: body, head and new bits laid out together. -/
theorem appendBits_eq {cfg : Config} {c : Cursor} (h : c.Ok cfg) (bits : Bits) :
    bits.foldl Cursor.appendBit c =
      { c with
        contents := ⟨c.body ++ bytesOf (c.head ++ bits)⟩, wbit := Fin.ofNat 8 (c.wbit.val + bits.length) } := by
  obtain ⟨hlay, hhead⟩ := contents_layout h
  rw [appendBits_layout bits hlay (by omega), hhead]

/-- The head of R93 stands between the body and the write pointer. -/
theorem writePos_eq {cfg : Config} {c : Cursor} (h : c.Ok cfg) : c.writePos = 8 * c.body.length + c.head.length := by
  obtain ⟨hlay, hhead⟩ := contents_layout h
  exact writePos_of_layout hlay (by omega)

/-- APPBITS moves the write pointer by the bits it appends (R92). -/
theorem appendBits_writePos {cfg : Config} {c : Cursor} (h : c.Ok cfg) (bits : Bits) :
    (bits.foldl Cursor.appendBit c).writePos = c.writePos + bits.length := by
  obtain ⟨-, hhead⟩ := contents_layout h
  rw [appendBits_eq h, writePos_eq h,
    writePos_of_layout (h := c.head ++ bits) rfl (by rw [List.length_append, hhead]; rfl), List.length_append,
    Nat.add_assoc]

/-- Room for two runs of bits is, behind the first, room for the second. -/
theorem roomFor_appendBits {cfg : Config} {c : Cursor} (h : c.Ok cfg) {l r : Bits}
    (hroom : c.RoomFor cfg (l ++ r).length) : (l.foldl Cursor.appendBit c).RoomFor cfg r.length := fun cap hcap => by
  have hsum := hroom cap hcap
  rwa [List.length_append, ← Nat.add_assoc, ← appendBits_writePos h] at hsum

/-- APPBITS with room for its bits appends them one by one (R92). -/
theorem exec_appbits {s : State} {bits : Bits} (hf : s.status.fault = false) (hok : s.cursor.Ok s.cfg)
    (hroom : s.cursor.RoomFor s.cfg bits.length) :
    exec (.appbits bits) s = .next ({ s with cursor := bits.foldl Cursor.appendBit s.cursor }.after .ok .none) := by
  have hcap := (roomFor_iff hok bits.length).mp hroom
  rw [exec_served hf, opEndOf, opAppbits, if_neg (by simp [hcap]), finish_ok]

/-- Settles O28: the two sides of the capacity test. -/
theorem appbytesAppends : Obligations.AppbytesAppends := by
  refine fun s bytes hf => ⟨fun hroom => ?_, fun cap hcap hover => ?_⟩
  · have hfits : Config.exceedsCap s.cfg (s.cursor.contents.len + bytes.length) = false :=
      (exceedsCap_eq_false_iff _ _).mpr hroom
    rw [exec_served hf, opEndOf, opAppbytes, if_neg (by simp [hfits]), finish_ok]
    rfl
  · exact exec_fatal hf (if_pos ((exceedsCap_eq_true_iff _ _).mpr ⟨cap, hcap, hover⟩))

/-- Two APPBITS in a row with room for both leave the cursor of one APPBITS of all their bits (R93). -/
theorem appbits_split {s t u : State} {l r : Bits} (hf : s.status.fault = false) (hok : s.cursor.Ok s.cfg)
    (hroom : s.cursor.RoomFor s.cfg (l ++ r).length) (hl : exec (.appbits l) s = .next t)
    (hr : exec (.appbits r) t = .next u) : u.cursor = (l ++ r).foldl Cursor.appendBit s.cursor := by
  have hroomL : s.cursor.RoomFor s.cfg l.length := roomFor_mono hroom (by simp)
  have hokT := appendBits_ok hok ((roomFor_iff hok l.length).mp hroomL)
  have hroomT := roomFor_appendBits hok hroom
  rw [exec_appbits hf hok hroomL, Host.Outcome.next.injEq] at hl
  have hcur : t.cursor = l.foldl Cursor.appendBit s.cursor := by rw [← hl, after_cursor]
  have hcfg : t.cfg = s.cfg := by rw [← hl, after_cfg]
  have hfT : t.status.fault = false := by rw [← hl]; exact hf
  rw [← hcur, ← hcfg] at hokT hroomT
  rw [exec_appbits hfT hokT hroomT, Host.Outcome.next.injEq] at hr
  rw [← hr, after_cursor, hcur, List.foldl_append]

/-- Settles O29: the closed form is the layout of R93 with its two cases of the head written out. -/
theorem appbitsClosedForm : Obligations.AppbitsClosedForm := by
  intro s bits hf hok hroom
  have hexec := exec_appbits hf hok hroom
  refine ⟨⟨_, rfl, ?_⟩, fun l r t u v hbits hl hr hv => ?_, fun t ht => ?_⟩
  · rw [hexec, appendBits_eq hok]
    by_cases hw : s.cursor.wbit = 0 <;> simp [Cursor.body, Cursor.head, hw]
  · rw [hexec, Host.Outcome.next.injEq] at hv
    subst hbits
    rw [appbits_split hf hok hroom hl hr, ← hv, after_cursor]
  · rw [exec_pack hf, Host.Outcome.next.injEq] at ht
    rw [← ht, after_lastResult]

/-- Settles O30: the test on bytes is the one on bits, and the bits appended take the bytes it counted. -/
theorem appbitsCapacity : Obligations.AppbitsCapacity := by
  intro s bits cap hf hcap hok
  have hbits := newBytes_le_iff_of_ok hok bits.length cap
  refine ⟨hbits, fun hfits => ⟨_, appendBits_len hok bits, ?_⟩, fun hover => ?_⟩
  · have hroom : s.cursor.RoomFor s.cfg bits.length := fun cap' hcap' => by
      rw [hcap, Option.some.injEq] at hcap'
      exact hcap' ▸ hbits.mp hfits
    rw [exec_appbits hf hok hroom, appendBits_eq hok]
  · exact exec_fatal hf (if_pos ((exceedsCap_eq_true_iff _ _).mpr ⟨cap, hcap, hover⟩))

end Sys2Proof.Machine
end

section
/-!
PROOF. RDBITS at both ends of its range (R97), and RDBYTES by the aligned position (R94, R95, R157).
-/
namespace Sys2Proof.Machine

/-- Settles O31: `exec_rdbits`, and the width test before it. -/
theorem rdbitsReadsNextBits : Obligations.RdbitsReadsNextBits := by
  refine fun s n hf => ⟨fun hw hl => ?_, fun hw => exec_fatal hf (if_pos hw)⟩
  exact ⟨s.cursor.atPos _, rfl, rfl, atPos_readPos _ _, exec_rdbits hf hw hl⟩

/-- Settles O32: the read consumes what is left, and that is the end of `contents`. -/
theorem rdbitsExhaustsWithoutRollback : Obligations.RdbitsExhaustsWithoutRollback := by
  intro s n hf hok hw hl
  rw [exec_served hf, opEndOf, opRdbits, Config.nMax, if_neg (Nat.not_lt.mpr hw), readBits_eq,
    if_neg (Nat.not_le.mpr hl)]
  simp only [finish_signal, Signal.status, atPos_end hok]

/-- The next byte boundary at or after the read pointer (R94 step 1). -/
theorem alignRead_eq (c : Cursor) :
    c.alignRead = { c with rbyte := if c.rbit = 0 then c.rbyte else c.rbyte + 1, rbit := 0 } := by
  have hzero : c.rbit = 0 ↔ c.rbit.val = 0 := Fin.ext_iff
  unfold Cursor.alignRead
  by_cases h : c.rbit = 0
  · rw [if_neg (not_not.mpr (hzero.mp h)), if_pos h, ← h]
  · rw [if_pos (mt hzero.mpr h), if_neg h]

/-- A run is exhausted when it ends behind `contents`, or under `exhaust` at its end (R94 step 2, R95). -/
theorem runExhausted_iff (c : Cursor) (tail : RbTail) (n : Nat) :
    c.runExhausted tail n = true ↔
      c.contents.len < c.rbyte + n ∨ (c.rbyte + n = c.contents.len ∧ tail = .exhaust) := by
  simp only [Cursor.runExhausted, Bool.or_eq_true, Bool.and_eq_true, decide_eq_true_eq, beq_iff_eq]
  by_cases ht : tail = .exhaust
  · simp only [ht, and_true]; omega
  · simp only [ht, and_false, or_false]; omega

/-- RDBYTES of an exhausted run keeps the alignment and nothing else (R94 step 2). -/
theorem exec_rdbytes_exhausted {s : State} {n : Nat} (hf : s.status.fault = false)
    (hx : s.cursor.alignRead.runExhausted s.cfg.rbTail n = true) :
    exec (.rdbytes n) s = .next ({ s with cursor := s.cursor.alignRead }.after .exhausted .none) := by
  rw [exec_served hf, opEndOf, opRdbytes, if_pos hx, finish_signal, Signal.status]

/-- The result limit comes before the alignment is written (R157, log 9). -/
theorem exec_rdbytes_tooLong {s : State} {n : Nat} (hf : s.status.fault = false)
    (hx : ¬ s.cursor.alignRead.runExhausted s.cfg.rbTail n = true) (hn : 2 ^ 32 ≤ n) :
    exec (.rdbytes n) s = .next (s.afterFault .capacityExceeded) := by
  refine exec_fatal hf ?_
  rw [opEndOf, opRdbytes, if_neg hx, if_pos ((resultTooLong_eq_true_iff n).mpr hn)]

/-- RDBYTES of a run that is there and can be sent answers it and skips it (R94 steps 3 and 4). -/
theorem exec_rdbytes_run {s : State} {n : Nat} (hf : s.status.fault = false)
    (hx : ¬ s.cursor.alignRead.runExhausted s.cfg.rbTail n = true) (hn : n < 2 ^ 32) :
    exec (.rdbytes n) s = .next
      ({ s with cursor := s.cursor.alignRead.skipRun s.cfg.rbTail n }.after .ok
        (.bytes (s.cursor.alignRead.contents.read s.cursor.alignRead.rbyte n))) := by
  rw [exec_served hf, opEndOf, opRdbytes, if_neg hx, if_neg (by simp [(resultTooLong_eq_false_iff n).mpr hn]),
    finish_ok]

/-- Where a byte follows the run, every `RB_TAIL` skips it (R95). -/
theorem skipRun_inside {c : Cursor} {n : Nat} (h : c.rbyte + n < c.contents.len) (tail : RbTail) :
    c.skipRun tail n = { c with rbyte := c.rbyte + n + 1 } := by
  have hmin : min (c.rbyte + n + 1) c.contents.len = c.rbyte + n + 1 := Nat.min_eq_left h
  cases tail <;> simp only [Cursor.skipRun, hmin]

/-- Where the run ends with `contents`, `clamp` skips nothing behind it (R95). -/
theorem skipRun_clamp_atEnd {c : Cursor} {n : Nat} (h : c.rbyte + n = c.contents.len) :
    c.skipRun .clamp n = { c with rbyte := c.contents.len } := by
  rw [Cursor.skipRun, h, Nat.min_eq_right (Nat.le_succ _)]

/-- Settles O34: the aligned cursor stands at byte `p`; the exhaustion test, the result limit and the skip decide. -/
theorem rdbytesReturnsRunAndSkips : Obligations.RdbytesReturnsRunAndSkips := by
  intro s n p hf hp len run
  have halign : s.cursor.alignRead = { s.cursor with rbyte := p, rbit := 0 } := by rw [alignRead_eq, hp]
  have hx := runExhausted_iff s.cursor.alignRead s.cfg.rbTail n
  rw [halign] at hx
  change _ ↔ len < p + n ∨ (p + n = len ∧ _) at hx
  have hrun := exec_rdbytes_run (n := n) hf
  have hlong := exec_rdbytes_tooLong (n := n) hf
  have hexhausted := exec_rdbytes_exhausted (n := n) hf
  rw [halign, hx] at hrun hlong hexhausted
  refine ⟨fun h hn => ?_, fun h hn ht => ?_, fun h hn ht => ?_, fun h ht => ?_, fun h => ?_, fun h hn => ?_⟩
  · rw [hrun (by omega) hn, skipRun_inside h]
    rfl
  · rw [hrun (by simp [h, ht]) hn, ht, skipRun_clamp_atEnd h]
    rfl
  · rw [hrun (by simp [h, ht]) hn, ht, Cursor.skipRun, h]
    rfl
  · exact hexhausted (.inr ⟨h, ht⟩)
  · exact hexhausted (.inl h)
  · refine hlong ?_ hn
    rcases h with h | ⟨h, ht⟩
    · omega
    · simp [h, ht]

end Sys2Proof.Machine
end

section
/-!
PROOF. The round trip of a mixed stream (R99, R122): APPBITS lays the codes behind the write pointer, and each read
takes one code off the front of the unread bits.
-/
namespace Sys2Proof.Machine

/-! ### Commands in a row -/

/-- At these parameters, from every state with `FAULT = 0` and the first cursor, the commands complete one after the
other, leave the second cursor and `FAULT = 0`, and answer these responses. -/
def Runs (cfg : Config) (is : List Instr) (c d : Cursor) (rs : List Response) : Prop :=
  ∀ s : State, s.cfg = cfg → s.status.fault = false → s.cursor = c →
    ∃ t : State, execAll is s = some t ∧ t.cfg = cfg ∧ t.status.fault = false ∧ t.cursor = d ∧
      t.responses = s.responses ++ rs

theorem execAll_append (is js : List Instr) (s : State) :
    execAll (is ++ js) s = (execAll is s).bind (execAll js) := by
  induction is generalizing s with
  | nil => rfl
  | cons i is ih =>
    simp only [List.cons_append, execAll]
    cases exec i s with
    | next t => exact ih t
    | fault _ => rfl
    | refused _ => rfl

theorem runs_nil (cfg : Config) (c : Cursor) : Runs cfg [] c c [] := fun s hcfg hf hcur =>
  ⟨s, rfl, hcfg, hf, hcur, (List.append_nil _).symm⟩

/-- A command answered `OK` that writes the cursor only. -/
theorem runs_single {cfg : Config} {i : Instr} {c d : Cursor} {r : Result}
    (h : ∀ s : State, s.cfg = cfg → s.status.fault = false → s.cursor = c →
      exec i s = .next ({ s with cursor := d }.after .ok r)) : Runs cfg [i] c d [⟨.ok, r⟩] := fun s hcfg hf hcur =>
  ⟨_, execAll_cons_of_next (h s hcfg hf hcur) [], hcfg, hf, rfl, rfl⟩

theorem runs_append {cfg : Config} {is js : List Instr} {c d e : Cursor} {rs qs : List Response}
    (h : Runs cfg is c d rs) (h' : Runs cfg js d e qs) : Runs cfg (is ++ js) c e (rs ++ qs) := by
  intro s hcfg hf hcur
  obtain ⟨t, hrun, hcfgT, hfT, hcurT, hresp⟩ := h s hcfg hf hcur
  obtain ⟨u, hrun', hcfgU, hfU, hcurU, hresp'⟩ := h' t hcfgT hfT hcurT
  exact ⟨u, by rw [execAll_append, hrun, Option.bind_some, hrun'], hcfgU, hfU, hcurU,
    by rw [hresp', hresp, List.append_assoc]⟩

/-! ### Writing the stream -/

/-- However the bits are split into APPBITS, they are appended one by one (R93). -/
theorem runs_appbits {cfg : Config} {c : Cursor} {chunks : List Bits} (hok : c.Ok cfg)
    (hroom : c.RoomFor cfg chunks.flatten.length) :
    Runs cfg (chunks.map .appbits) c (chunks.flatten.foldl Cursor.appendBit c) (chunks.map fun _ => ⟨.ok, .none⟩) := by
  induction chunks generalizing c with
  | nil => exact runs_nil cfg c
  | cons bits chunks ih =>
    rw [List.flatten_cons] at hroom ⊢
    have hroomHere : c.RoomFor cfg bits.length := roomFor_mono hroom (by simp)
    have hokNext := appendBits_ok hok ((roomFor_iff hok bits.length).mp hroomHere)
    have hfirst : Runs cfg [.appbits bits] c (bits.foldl Cursor.appendBit c) [⟨.ok, .none⟩] :=
      runs_single fun s hcfg hf hcur => by
        subst hcfg hcur
        exact exec_appbits hf hok hroomHere
    rw [List.foldl_append]
    exact runs_append hfirst (ih hokNext (roomFor_appendBits hok hroom))

/-- With the read pointer at the write pointer, the unread bits after an append begin with the bits appended (R99). -/
theorem appendBits_unread {cfg : Config} {c : Cursor} (h : c.Ok cfg) (hpos : c.readPos = c.writePos) (bits : Bits) :
    ∃ pad : Bits, (bits.foldl Cursor.appendBit c).unread = bits ++ pad := by
  have hstart : c.readPos = (bitsOf c.body ++ c.head).length := by
    rw [hpos, writePos_eq h, List.length_append, bitsOf_length]
  rw [appendBits_eq h, Cursor.unread]
  change ∃ pad, (bitsOf (c.body ++ bytesOf (c.head ++ bits))).drop c.readPos = bits ++ pad
  rw [bitsOf_append, bitsOf_bytesOf, hstart, List.append_assoc, ← List.append_assoc, List.drop_left]
  exact ⟨_, rfl⟩

/-! ### Reading the stream -/

/-- The decoder takes a whole unsigned code with few enough leading zeros off the unread bits (R115). -/
theorem decodeCodeNum_ue {lz v : Nat} {c : Cursor} {rest : Bits} (hv : v + 1 < 2 ^ (lz + 1))
    (hu : c.unread = ue v ++ rest) : decodeCodeNum lz c = .got v (c.atPos (c.readPos + (ue v).length)) := by
  obtain ⟨z, suffix, hval, hlt, hcode, hbitlen⟩ := ue_shape v
  have hz : z ≤ lz := by
    have hlen := (bitlen_le_iff (v + 1) (lz + 1)).mpr hv
    omega
  have hlen : (ue v).length = 2 * z + 1 := by rw [hcode]; simp; omega
  rw [decodeCodeNum_code (rest := rest) hz (bin_length suffix z) (by rw [hu, hcode]; simp), val_bin_of_lt hlt, hval,
    hlen]

/-- The code number of a signed `VAL_W`-bit value is at most `2^VAL_W` (R66). -/
theorem codenum_le_pow {n : Nat} {v : Int} (hn : 1 ≤ n) (hlow : -(2 ^ (n - 1) : Int) ≤ v)
    (hhigh : v < (2 ^ (n - 1) : Int)) : codenum v ≤ 2 ^ n := by
  have hpow : 2 ^ n = 2 * 2 ^ (n - 1) := by rw [← pow_succ', Nat.sub_add_cancel hn]
  have hcast : ((2 ^ (n - 1) : Nat) : Int) = 2 ^ (n - 1) := by push_cast; rfl
  rcases le_or_gt v 0 with h | h
  · rw [codenum_nonpos h]; omega
  · rw [codenum_pos h]; omega

/-- RDBITS takes the `w` bits of a value off the unread bits (R97, R61). -/
theorem exec_rdbits_bin {s : State} {v w : Nat} {rest : Bits} (hf : s.status.fault = false) (hmax : s.cfg.valW ≤ 255)
    (hw : w ≤ s.cfg.valW) (hv : v < 2 ^ w) (hu : s.cursor.unread = bin v w ++ rest) :
    exec (.rdbits (BitVec.ofNat 8 w)) s = .next
      ({ s with cursor := s.cursor.atPos (s.cursor.readPos + w) }.after .ok (.value v)) := by
  have hwidth : (BitVec.ofNat 8 w).toNat = w := by rw [BitVec.toNat_ofNat]; omega
  have htake : s.cursor.unread.take w = bin v w := by rw [hu, List.take_left' (bin_length v w)]
  rw [exec_rdbits hf (by omega) (by rw [hu, hwidth]; simp), hwidth, htake, val_bin_of_lt hv]

/-- DECUE takes the code of a value that fits a value word off the unread bits (R116). -/
theorem exec_decue_ue {s : State} {v : Nat} {rest : Bits} (hf : s.status.fault = false) (hv : v < 2 ^ s.cfg.valW)
    (hu : s.cursor.unread = ue v ++ rest) :
    exec .decue s = .next
      ({ s with cursor := s.cursor.atPos (s.cursor.readPos + (ue v).length) }.after .ok (.value v)) := by
  have hdecode := decodeCodeNum_ue (lz := s.cfg.lzMax) (by rw [Config.lzMax, pow_succ]; omega) hu
  rw [exec_served hf, opEndOf, opDecue, hdecode]
  simp only [if_neg (Nat.not_le.mpr hv), finish_ok]

/-- DECSE takes the code of a signed value in range off the unread bits (R117, R67). -/
theorem exec_decse_ue {s : State} {v : Int} {rest : Bits} (hf : s.status.fault = false) (hmin : 1 ≤ s.cfg.valW)
    (hlow : -(2 ^ (s.cfg.valW - 1) : Int) ≤ v) (hhigh : v < (2 ^ (s.cfg.valW - 1) : Int))
    (hu : s.cursor.unread = ue (codenum v) ++ rest) :
    exec .decse s = .next
      ({ s with cursor := s.cursor.atPos (s.cursor.readPos + (ue (codenum v)).length) }.after .ok
        (.value (twosWord s.cfg.valW v))) := by
  have hle := codenum_le_pow hmin hlow hhigh
  have htwo : 2 ^ 1 ≤ 2 ^ s.cfg.valW := Nat.pow_le_pow_right (by omega) hmin
  have hdecode := decodeCodeNum_ue (lz := s.cfg.lzMax) (by rw [Config.lzMax, pow_succ]; omega) hu
  rw [exec_served hf, opEndOf, opDecse, hdecode]
  simp only [signedof_codenum_eq]
  rw [if_neg (by omega), finish_ok]

/-- The read of a field whose code comes next answers its value word and consumes just the code (R99, R122). -/
theorem exec_fieldRead {s : State} {f : Field} {rest : Bits} (hf : s.status.fault = false) (hwf : s.cfg.wf = true)
    (hfits : f.Fits s.cfg) (hu : s.cursor.unread = f.bits ++ rest) :
    exec f.read s = .next
      ({ s with cursor := s.cursor.atPos (s.cursor.readPos + f.bits.length) }.after .ok (.value (f.word s.cfg))) := by
  simp only [Config.wf, Bool.and_eq_true, decide_eq_true_eq] at hwf
  obtain ⟨hmin, hmax⟩ := hwf
  cases f with
  | fixed v w =>
    obtain ⟨hw, hv⟩ := hfits
    rw [Field.bits, bin_length]
    exact exec_rdbits_bin hf hmax hw hv hu
  | ue v => exact exec_decue_ue hf hfits hu
  | se v =>
    obtain ⟨hlow, hhigh⟩ := hfits
    exact exec_decse_ue hf (by omega) hlow hhigh hu

/-- The reads of fields whose codes come next answer their value words and consume just the codes (R99, R122). -/
theorem runs_fieldReads {cfg : Config} {c : Cursor} {fields : List Field} {rest : Bits} (hwf : cfg.wf = true)
    (hfits : ∀ f ∈ fields, f.Fits cfg) (hu : c.unread = (fields.map Field.bits).flatten ++ rest) :
    Runs cfg (fields.map Field.read) c (c.atPos (c.readPos + (fields.map Field.bits).flatten.length))
      (fields.map fun f => ⟨.ok, .value (f.word cfg)⟩) := by
  induction fields generalizing c with
  | nil => simpa [atPos_self] using runs_nil cfg c
  | cons f fields ih =>
    rw [List.map_cons, List.flatten_cons, List.append_assoc] at hu
    obtain ⟨hfit, hfitsRest⟩ := List.forall_mem_cons.mp hfits
    have hfirst : Runs cfg [f.read] c (c.atPos (c.readPos + f.bits.length)) [⟨.ok, .value (f.word cfg)⟩] :=
      runs_single fun s hcfg hf hcur => by
        subst hcfg hcur
        exact exec_fieldRead hf hwf hfit hu
    have hrest := ih hfitsRest (c := c.atPos (c.readPos + f.bits.length)) (by rw [unread_atPos, hu, List.drop_left])
    rw [atPos_readPos, atPos_atPos, Nat.add_assoc, ← List.length_append] at hrest
    exact runs_append hfirst hrest

/-- Settles O46: after the appends the unread bits are the codes and the pad bits, and the reads take the codes off one
by one. -/
theorem mixedStreamRoundTrip : Obligations.MixedStreamRoundTrip := by
  intro s fields chunks hinv hwf hf hpos hfits hbits hroom
  obtain ⟨hok, -⟩ := hinv
  obtain ⟨pad, hunread⟩ := appendBits_unread hok hpos chunks.flatten
  obtain ⟨hrbyte, hrbit⟩ := appendBits_readPointer chunks.flatten s.cursor
  have hcodes := hunread.trans (congrArg (· ++ pad) hbits)
  have hruns := runs_append (runs_appbits hok hroom) (runs_fieldReads hwf hfits hcodes)
  obtain ⟨t, hrun, -, -, hcur, hresp⟩ := hruns s rfl hf rfl
  refine ⟨t, hrun, by rw [hresp, List.append_assoc], ?_⟩
  rw [hcur, atPos_readPos, Cursor.readPos, hrbyte, hrbit, hbits, Cursor.readPos]

end Sys2Proof.Machine
end

section
/-!
PROOF. The IntegerCodec around the codes: what ENCF and the width commands answer (R111, R112, R118, R119), what DECSE
reads (R117), and how both decoders end on bits that are no whole code within the limit (R115).
-/
namespace Sys2Proof.Machine

/-- Settles O35: the bits are the `width` low bits of the value. -/
theorem encfSpellsValue : Obligations.EncfSpellsValue :=
  fun _ _ value hf => ⟨fun hw hv => ⟨_, bin_length _ _, val_bin_of_lt hv, exec_encf_fits hf hw hv⟩,
    fun hw => exec_encf_wide hf hw value⟩

/-- Settles O36: the two sides of `STRICT`. -/
theorem encfOverflowFollowsStrict : Obligations.EncfOverflowFollowsStrict :=
  fun _ _ _ hf hw hv => ⟨exec_encf_strict hf hw hv, fun hs =>
    ⟨_, bin_length _ _, val_bin_of_lt (Nat.mod_lt _ (Nat.two_pow_pos _)), exec_encf_lax hf hw hv hs⟩⟩

/-! ### Widths -/

/-- The width of WIDTHU is enough exactly where `max` can be written (R118). -/
theorem max_one_bitlen_le_iff {u : Nat} (hu : 1 ≤ u) (x : Nat) : max 1 (bitlen x) ≤ u ↔ x < 2 ^ u := by
  rw [Nat.max_le, bitlen_le_iff, and_iff_right hu]

/-- Settles O40: `max_one_bitlen_le_iff`, at the width itself and at every other. -/
theorem widthuIsLeastWidth : Obligations.WidthuIsLeastWidth := by
  intro s hi hf
  have hpos : 1 ≤ max 1 (bitlen hi) := le_max_left _ _
  refine ⟨max 1 (bitlen hi), hpos, (max_one_bitlen_le_iff hpos hi).mp le_rfl,
    fun u hu => (max_one_bitlen_le_iff hu hi).mpr, ?_⟩
  rw [exec_served hf, opEndOf, opWidthu, finish_ok]

/-- WIDTHS of a range that is not empty answers the width of WIDTHU for one less than the range (R119). -/
theorem exec_widths {s : State} {lo hi : Int} (hf : s.status.fault = false) (h : lo ≤ hi) :
    exec (.widths lo hi) s = .next (s.after .ok (.value (max 1 (bitlen ((hi - lo).toNat - 1))))) := by
  rw [exec_served hf, opEndOf, opWidths, if_neg (by omega)]
  split
  · have hzero : (hi - lo).toNat - 1 = 0 := by omega
    rw [finish_ok, hzero]
    rfl
  · have hpos : 1 ≤ bitlen ((hi - lo).toNat - 1) := bitlen_pos (by omega)
    rw [finish_ok, Nat.max_eq_right hpos]

/-- A range reaches no further than `2^u` exactly where one less than it is below `2^u` (R119). -/
theorem range_le_pow_iff {d : Int} (hd : 0 ≤ d) (u : Nat) : d ≤ 2 ^ u ↔ d.toNat - 1 < 2 ^ u := by
  have hcast : ((2 ^ u : Nat) : Int) = 2 ^ u := by push_cast; rfl
  have hpos : 0 < 2 ^ u := Nat.two_pow_pos u
  omega

/-- Settles O41: the width of WIDTHU for one less than the range, by `range_le_pow_iff`. -/
theorem widthsIsLeastWidth : Obligations.WidthsIsLeastWidth := by
  refine fun s lo hi hf => ⟨fun hle => ?_, fun hlt => exec_fatal hf (if_pos (by omega))⟩
  have hreach {u : Nat} (hu : 1 ≤ u) : max 1 (bitlen ((hi - lo).toNat - 1)) ≤ u ↔ hi - lo ≤ 2 ^ u := by
    rw [max_one_bitlen_le_iff hu, range_le_pow_iff (Int.sub_nonneg.mpr hle)]
  have hpos : 1 ≤ max 1 (bitlen ((hi - lo).toNat - 1)) := le_max_left _ _
  exact ⟨_, hpos, (hreach hpos).mp le_rfl, fun u hu => (hreach hu).mpr, exec_widths hf hle⟩

/-! ### DECSE on a whole code -/

/-- The branches of `signedof` without division (R67). -/
theorem signedof_eq_of_double {k : Nat} {v : Int} (h : (k % 2 = 1 ∧ 2 * v = k + 1) ∨ (k % 2 = 0 ∧ 2 * v = -k)) :
    signedof k = v := by
  rcases h with ⟨hodd, hv⟩ | ⟨heven, hv⟩
  · rw [signedof_odd hodd]; omega
  · rw [signedof_even heven]; omega

/-- The two's complement word of a value that is not negative. -/
theorem twosWord_of_eq {n w : Nat} {v : Int} (hw : w < 2 ^ n) (h : (w : Int) = v) : twosWord n v = w := by
  rw [twosWord, ← h, Int.emod_eq_of_lt (Int.natCast_nonneg w) (by exact_mod_cast hw), Int.toNat_natCast]

/-- The two's complement word of a negative value. -/
theorem twosWord_of_eq_add {n w : Nat} {v : Int} (hw : w < 2 ^ n) (h : (w : Int) = v + 2 ^ n) : twosWord n v = w := by
  rw [← twosWord_of_eq hw h, twosWord, twosWord, Int.add_emod_right]

/-- DECSE on a whole code within the limit answers the word of its signed value if that is in the signed `VAL_W`-bit
range, and consumes the code either way (R115, R117, R193). -/
theorem exec_decse_code {s : State} {z : Nat} {v : Int} {suffix rest : Bits} (hf : s.status.fault = false)
    (hz : z ≤ s.cfg.valW) (hs : suffix.length = z) (hu : s.cursor.unread = zeros z ++ true :: (suffix ++ rest))
    (hv : signedof (2 ^ z - 1 + val suffix) = v) :
    exec .decse s = finish s
      (if v < -(2 ^ (s.cfg.valW - 1) : Int) ∨ (2 ^ (s.cfg.valW - 1) : Int) - 1 < v then
        .signal { s with cursor := s.cursor.atPos (s.cursor.readPos + (2 * z + 1)) } .decodeRange
      else .ok { s with cursor := s.cursor.atPos (s.cursor.readPos + (2 * z + 1)) }
        (.value (twosWord s.cfg.valW v))) := by
  subst hv
  rw [exec_served hf, opEndOf, opDecse, decodeCodeNum_code (lz := s.cfg.lzMax) hz hs hu]

/-- Settles O43: the cursor moves over the code's `2z + 1` bits, and the range test decides the answer. -/
theorem decseReadsOneCode : Obligations.DecseReadsOneCode := by
  intro s z k v suffix rest hf _ hz hs hu hk hv
  have hu' : s.cursor.unread = zeros z ++ true :: (suffix ++ rest) := by rw [hu, zeros]; simp
  have hexec := exec_decse_code hf hz hs hu' (hk ▸ signedof_eq_of_double hv)
  have hpow : (0 : Int) < 2 ^ (s.cfg.valW - 1) := by positivity
  refine ⟨s.cursor.atPos (s.cursor.readPos + (2 * z + 1)), rfl, rfl, atPos_readPos _ _,
    fun w hw hnonneg hhigh hword => ?_, fun w hw hneg hlow hword => ?_, fun hout => ?_⟩
  · rw [hexec, if_neg (by omega), finish_ok, twosWord_of_eq hw hword]
  · rw [hexec, if_neg (by omega), finish_ok, twosWord_of_eq_add hw hword]
  · rw [hexec, if_pos (by omega), finish_signal, Signal.status]

/-! ### Both decoders on bits that are no whole code -/

/-- A decoder that finds the code cut short answers `Exhausted` (R115, R192). -/
theorem exec_decoder_exhausted {i : Instr} {s : State} {c : Cursor} (hi : i = .decue ∨ i = .decse)
    (hf : s.status.fault = false) (hread : decodeCodeNum s.cfg.lzMax s.cursor = .exhausted c) :
    exec i s = .next ({ s with cursor := c }.after .exhausted .none) := by
  rw [exec_served hf]
  rcases hi with rfl | rfl
  · rw [opEndOf, opDecue, hread, finish_signal, Signal.status]
  · rw [opEndOf, opDecse, hread, finish_signal, Signal.status]

/-- A decoder that finds too many zeros answers `DecodeRange` (R115, R193). -/
theorem exec_decoder_outOfRange {i : Instr} {s : State} {c : Cursor} (hi : i = .decue ∨ i = .decse)
    (hf : s.status.fault = false) (hread : decodeCodeNum s.cfg.lzMax s.cursor = .outOfRange c) :
    exec i s = .next ({ s with cursor := c }.after .decodeRange .none) := by
  rw [exec_served hf]
  rcases hi with rfl | rfl
  · rw [opEndOf, opDecue, hread, finish_signal, Signal.status]
  · rw [opEndOf, opDecse, hread, finish_signal, Signal.status]

/-- Settles O44: the code is cut among its zeros or behind its marker, and what is consumed ends at the end of `contents`. -/
theorem decodersExhaustOnCutCode : Obligations.DecodersExhaustOnCutCode := by
  intro i s hi hf hok hcut
  rw [← atPos_end hok]
  refine exec_decoder_exhausted hi hf ?_
  rcases hcut with ⟨z, hz, hu⟩ | ⟨z, suffix, hz, hs, hu⟩
  · have hlen : s.cursor.unread.length = z := by rw [hu, List.length_replicate]
    rw [hlen]
    exact decodeCodeNum_zeros hz hu
  · exact decodeCodeNum_cut hz hs (by rw [hu, zeros]; simp)

/-- Settles O45: the limit and one more zero are consumed. -/
theorem decodersStopAfterTooManyZeros : Obligations.DecodersStopAfterTooManyZeros := by
  intro i s rest hi hf hu
  exact ⟨s.cursor.atPos (s.cursor.readPos + (s.cfg.valW + 1)), rfl, rfl, atPos_readPos _ _,
    exec_decoder_outOfRange hi hf (decodeCodeNum_outOfRange hu)⟩

end Sys2Proof.Machine
end

section
/-!
PROOF. PACK, PACKT and their agreement with the cursor's writes (R130 to R134), all read off the byte layout of R60.
-/
namespace Sys2Proof.Machine

/-- Settles O47: PACK answers the layout of its bits, whose byte `j` is the `j`-th group of eight. -/
theorem packGroupsBitsIntoBytes : Obligations.PackGroupsBitsIntoBytes := by
  intro s bits hf
  rw [exec_pack hf, bytesOf_eq_groups]
  rfl

/-! ### The stop bit -/

/-- The last bit falls into the byte behind the whole bytes before it. -/
theorem bytesOf_concat (h : Bits) (b : Bool) :
    bytesOf (h ++ [b]) =
      bytesOf (h.take (8 * (h.length / 8))) ++ [byteOfBits (h.drop (8 * (h.length / 8)) ++ [b])] := by
  have hfull : (h.take (8 * (h.length / 8))).length % 8 = 0 := by rw [List.length_take]; omega
  have hshort : (h.drop (8 * (h.length / 8)) ++ [b]).length ≤ 8 := by
    rw [List.length_append, drop_wholeBytes_length, List.length_singleton]; omega
  conv_lhs => rw [← List.take_append_drop (8 * (h.length / 8)) h, List.append_assoc]
  rw [bytesOf_append hfull, bytesOf_one _ (by simp) hshort]

/-- Below the data bits of a byte stand the stop bit and zeros (R133). -/
theorem byteOfBits_stopBit {h : Bits} (hl : h.length < 8) :
    (byteOfBits (h ++ [true])).toNat % 2 ^ (8 - h.length) = 2 ^ (7 - h.length) := by
  have hlen : (h ++ [true]).length = h.length + 1 := List.length_append
  have hval : val (h ++ [true]) = 2 * val h + 1 := by rw [val_append, Nat.mul_comm]; rfl
  have hpow : 2 ^ (8 - h.length) = 2 ^ (7 - h.length) * 2 := by
    rw [← pow_succ]; congr 1; omega
  rw [byteOfBits_toNat (by omega), hlen, hval, hpow, show 8 - (h.length + 1) = 7 - h.length by omega, Nat.mul_comm,
    Nat.mul_mod_mul_left, Nat.mul_add_mod, Nat.mul_one]

/-- Settles O48: the data behind the whole bytes and the stop bit make the last byte, whose low bits are the stop bit
and zeros. -/
theorem packtEndsInStopBit : Obligations.PacktEndsInStopBit := by
  intro s data hf
  have hexec := exec_pack hf (data ++ [true])
  have hcut := bytesOf_concat data true
  have hlow := byteOfBits_stopBit (h := data.drop (8 * (data.length / 8))) (by rw [drop_wholeBytes_length]; omega)
  rw [drop_wholeBytes_length] at hlow
  generalize bytesOf (data.take (8 * (data.length / 8))) = out at hcut
  generalize byteOfBits (data.drop (8 * (data.length / 8)) ++ [true]) = last at hcut hlow
  refine ⟨_, out, last, (run_of_single (p := .packt data) (fun _ => rfl) s).trans hexec, hexec, by rw [hcut], ?_, ?_,
    hlow, ?_, fun h0 => ?_, fun h7 => ?_⟩
  · rw [← hcut, bitsOf_bytesOf, List.length_append, List.length_singleton, zeros]
  · simpa using (congrArg List.length hcut).symm
  · rintro rfl
    exact (Nat.two_pow_pos _).ne ((Nat.zero_mod _).symm.trans hlow)
  · rw [h0] at hlow
    apply BitVec.eq_of_toNat_eq
    rwa [Nat.mod_eq_of_lt last.isLt] at hlow
  · rw [h7] at hlow
    simpa [BitVec.getLsbD, Nat.testBit_zero] using hlow

/-! ### PACK and the cursor -/

/-- At a byte boundary APPBITS appends the layout of its bits (R134). -/
theorem appendBits_aligned {c : Cursor} (hw : c.wbit = 0) (bits : Bits) :
    bits.foldl Cursor.appendBit c =
      { c with contents := c.contents.append (bytesOf bits), wbit := Fin.ofNat 8 bits.length } := by
  rw [appendBits_layout (body := c.contents.bytes) (h := []) bits (by simp) (by rw [hw]; rfl)]
  simp [Memory.append]

/-- An unbounded buffer passes every capacity test (R50). -/
theorem exceedsCap_unbounded {cfg : Config} (h : cfg.cap = none) (n : Nat) : Config.exceedsCap cfg n = false :=
  (exceedsCap_eq_false_iff cfg n).mpr (by simp [h])

/-- APPBITS into an unbounded buffer appends its bits one by one (R92), whether or not the cursor meets R21. -/
theorem exec_appbits_unbounded {s : State} (hf : s.status.fault = false) (hcap : s.cfg.cap = none) (bits : Bits) :
    exec (.appbits bits) s = .next ({ s with cursor := bits.foldl Cursor.appendBit s.cursor }.after .ok .none) := by
  rw [exec_served hf, opEndOf, opAppbits, exceedsCap_unbounded hcap, if_neg Bool.false_ne_true, finish_ok]

/-- Settles O49: both appends put the layout PACK answers behind `contents`. -/
theorem packMatchesAppbits : Obligations.PackMatchesAppbits := by
  intro s bits hf hcap hw
  have happbits := exec_appbits_unbounded hf hcap bits
  rw [appendBits_aligned hw] at happbits
  have happbytes := (appbytesAppends s (bytesOf bits) hf).1 (by simp [hcap])
  exact ⟨bytesOf bits, _, _, _, exec_pack hf bits, after_lastResult _ _ _, happbits, rfl, rfl, happbytes, rfl, rfl⟩

end Sys2Proof.Machine
end

section
/-!
PROOF. EPINS is complete: it answers the one-counter form of R141 or that the form is too long to send (R157). On a run
of zeros the form is written out (R142).
-/
namespace Sys2Proof.Machine

/-- EPINS of a payload whose escaped form is too long to send is the fatal `CapacityExceeded` (R157). -/
theorem exec_epins_tooLong {s : State} {bytes : Bytes} (hf : s.status.fault = false)
    (hl : 2 ^ 32 ≤ (counterEscape 0 bytes).length) :
    exec (.epins bytes) s = .next (s.afterFault .capacityExceeded) := by
  have hlong : resultTooLong (counterEscape 0 bytes).length = true := (resultTooLong_eq_true_iff _).mpr hl
  rw [exec_served hf, opEndOf, opEpins, epRun_zero, hlong, if_pos rfl, finish_fatal, afterFatal_of_no_fault _ hf]

/-- Settles O50: the two outcomes of the length test, with the flags the fold leaves. -/
theorem epinsMatchesCounterForm : Obligations.EpinsMatchesCounterForm := fun _ _ hf =>
  ⟨fun hl => ⟨_, exec_epins hf hl⟩, exec_epins_tooLong hf⟩

/-- The first two zeros of a run pass and fill the counter; from there on every second zero is escaped. -/
theorem counterEscape_zeros_append (m : Nat) (bytes : Bytes) :
    counterEscape 0 (List.replicate (2 * m + 2) 0x00#8 ++ bytes) =
      [0x00#8, 0x00#8] ++ (List.replicate m [0x03#8, 0x00#8, 0x00#8]).flatten ++ counterEscape 2 bytes := by
  have hfirst (l : Bytes) : counterEscape 0 (0#8 :: 0#8 :: l) = 0#8 :: 0#8 :: counterEscape 2 l := by
    simp [counterEscape_cons]
  rw [List.replicate_succ, List.replicate_succ, List.cons_append, List.cons_append, hfirst, counterEscape_zeros]
  rfl

/-- Settles O54: after an even run of zeros nothing is left to escape, after an odd one a last zero is. -/
theorem zeroRunEscapedEveryTwoZeros : Obligations.ZeroRunEscapedEveryTwoZeros := by
  refine fun s t m out => ⟨fun h hout => ?even, fun h hout => ?odd⟩
  case even =>
    have hrun := counterEscape_zeros_append m []
    have hend : counterEscape 2 [] = [] := rfl
    rw [List.append_nil, hend, List.append_nil] at hrun
    rw [epins_result h hout, hrun]
  case odd =>
    have hlast : counterEscape 2 [0x00#8] = [0x03#8, 0x00#8] := by decide
    rw [epins_result h hout, List.replicate_succ', counterEscape_zeros_append, hlast]

end Sys2Proof.Machine
end

section
/-!
PROOF. The system commands (R150 to R154): what each of them does in every state it is served in, the fault state
included.
-/
namespace Sys2Proof.Machine

/-- A command whose operation raises a fatal fault is answered with it, whether it was served or turned away: while
`FAULT = 1` both are `Faulted` (R155 steps 1 and 4, R203). -/
theorem exec_of_fatal {i : Instr} {s : State} {f : FatalFault} (h : opEndOf i s = .fatal f) :
    exec i s = .next (s.afterFatal f) := by
  cases hf : s.status.fault with
  | false => rw [exec_served hf, h, finish_fatal]
  | true =>
    cases ho : servedInFault i.op with
    | false => rw [exec_faulted hf ho, afterFatal_of_fault f hf]
    | true => rw [exec_eq, execute_served (.inr ho), h, finish_fatal]

/-! ### INIT and LOAD -/

/-- Settles O21: `exec_init`, with the new session and the cleared hidden state written out. -/
theorem initCreatesEmptyCursor : Obligations.InitCreatesEmptyCursor := exec_init

/-- LOAD of a payload within `CAP` is served in every state (R151, R156). -/
theorem exec_load {s : State} {bytes : Bytes} (h : Config.exceedsCap s.cfg bytes.length = false) :
    exec (.load bytes) s = .next ((newSession s bytes).after .ok .none) := by
  rw [exec_eq, execute_served (.inr rfl), opEndOf, opLoad, h, if_neg Bool.false_ne_true, finish_ok]

/-- LOAD of a payload longer than `CAP` is the fatal `CapacityExceeded` (R50). -/
theorem exec_load_overCap {s : State} {bytes : Bytes} {cap : Nat} (hcap : s.cfg.cap = some cap)
    (h : cap < bytes.length) : exec (.load bytes) s = .next (s.afterFatal .capacityExceeded) := by
  have hover : Config.exceedsCap s.cfg bytes.length = true := (exceedsCap_eq_true_iff _ _).mpr ⟨cap, hcap, h⟩
  exact exec_of_fatal (by rw [opEndOf, opLoad, hover, if_pos rfl])

/-- Settles O23: the two outcomes of the capacity test. -/
theorem loadCreatesCursor : Obligations.LoadCreatesCursor := fun _ _ =>
  ⟨fun h => exec_load ((exceedsCap_eq_false_iff _ _).mpr h), fun _ => exec_load_overCap⟩

/-! ### DUMP -/

/-- DUMP of a buffer that can be sent is served in every state (R152, R156). -/
theorem exec_dump {s : State} (h : s.cursor.contents.bytes.length < 2 ^ 32) :
    exec .dump s = .next (s.after .ok (.bytes s.cursor.contents.bytes)) := by
  have hfits : resultTooLong s.cursor.contents.len = false := (resultTooLong_eq_false_iff _).mpr h
  rw [exec_eq, execute_served (.inr rfl), opEndOf, opDump, hfits, if_neg Bool.false_ne_true, Memory_read_all, finish_ok]

/-- DUMP of a buffer too long to send is the fatal `CapacityExceeded` (R157). -/
theorem exec_dump_tooLong {s : State} (h : 2 ^ 32 ≤ s.cursor.contents.bytes.length) :
    exec .dump s = .next (s.afterFatal .capacityExceeded) := by
  have hlong : resultTooLong s.cursor.contents.len = true := (resultTooLong_eq_true_iff _).mpr h
  exact exec_of_fatal (by rw [opEndOf, opDump, hlong, if_pos rfl])

/-- Settles O24: the two outcomes of the length test. -/
theorem dumpReturnsContents : Obligations.DumpReturnsContents := fun _ => ⟨exec_dump, exec_dump_tooLong⟩

/-! ### RDREG -/

/-- The registers are numbered 0 to 5 (R24). -/
theorem readRegister_eq_none {r : Nat} (h : 5 < r) (s : State) : readRegister s r = none := by
  match r, h with
  | _ + 6, _ => rfl

/-- RDREG is served in every state and returns a register whose value fits a value word (R153, R156). -/
theorem exec_rdreg {s : State} {r : BitVec 8} {v : Nat} (hr : readRegister s r.toNat = some v)
    (hv : v < 2 ^ s.cfg.valW) : exec (.rdreg r) s = .next (s.after .ok (.value v)) := by
  rw [exec_eq, execute_served (.inr rfl), opEndOf, opRdreg, hr]
  simp only [if_pos hv, finish_ok]

/-- A register whose value does not fit a value word has no value the spec defines (R24). -/
theorem exec_rdreg_tooWide {s : State} {r : BitVec 8} {v : Nat} (hr : readRegister s r.toNat = some v)
    (hv : 2 ^ s.cfg.valW ≤ v) : exec (.rdreg r) s = .refused .registerValueUndefined := by
  rw [exec_eq, execute_served (.inr rfl), opEndOf, opRdreg, hr]
  simp only [if_neg hv.not_gt, finish_unclaimed]

/-- A number above 5 names no register (R153). -/
theorem exec_rdreg_unnamed {s : State} {r : BitVec 8} (h : 5 < r.toNat) :
    exec (.rdreg r) s = .next (s.afterFatal .illegalCommand) :=
  exec_of_fatal (by rw [opEndOf, opRdreg, readRegister_eq_none h])

/-- `CTRL` as a number (R16). -/
theorem ctrl_word_toNat (c : Ctrl) : c.word.toNat = if c.strict then 1 else 0 := by
  obtain ⟨strict⟩ := c
  cases strict <;> rfl

/-- A concatenated word as a number: the right part lies below the left one. -/
theorem append_toNat {m n : Nat} (x : BitVec m) (y : BitVec n) : (x ++ y).toNat = x.toNat * 2 ^ n + y.toNat := by
  rw [BitVec.toNat_append, ← Nat.shiftLeft_add_eq_or_of_lt y.isLt, Nat.shiftLeft_eq]

/-- `STATUS` as a number: `LAST`, `CAUSE`, `OVFW` and `FAULT` at bits 8, 4, 1 and 0 (R17). -/
theorem status_word_toNat (st : Status) :
    st.word.toNat = (if st.fault then 1 else 0) + (if st.ovfw then 2 else 0) + 16 * st.cause.code.toNat +
      256 * st.last.code.toNat := by
  have hbit (b : Bool) : (BitVec.ofBool b).toNat = if b then 1 else 0 := by cases b <;> rfl
  simp only [Status.word, append_toNat, hbit, BitVec.toNat_zero]
  split <;> split <;> omega

/-- Settles O25: each register is read through `readRegister`. `LEN` and `RBYTE` are numbers without a bound; the other
four have at most 12 bits, so they fit every value word of that width. -/
theorem rdregReturnsRegister : Obligations.RdregReturnsRegister := by
  intro s hw
  have hfits {v : Nat} (hv : v < 2 ^ 12) : v < 2 ^ s.cfg.valW := hv.trans_le (Nat.pow_le_pow_right (by decide) hw)
  have hctrl : s.ctrl.word.toNat < 2 ^ 12 := s.ctrl.word.isLt.trans (by decide)
  have hoffset (b : Fin 8) : b.val < 2 ^ 12 := b.isLt.trans (by decide)
  rw [← ctrl_word_toNat, ← status_word_toNat]
  exact ⟨exec_rdreg rfl, exec_rdreg rfl, exec_rdreg rfl (hfits (hoffset _)), exec_rdreg rfl (hfits (hoffset _)),
    exec_rdreg rfl (hfits hctrl), exec_rdreg rfl (hfits s.status.word.isLt), fun _ => exec_rdreg_unnamed,
    exec_rdreg_tooWide rfl, exec_rdreg_tooWide rfl⟩

/-! ### WRCTRL -/

/-- WRCTRL of a value without a reserved bit writes `STRICT` (R154). -/
theorem exec_wrctrl {s : State} {c : BitVec 8} (hf : s.status.fault = false) (h : c.toNat ≤ 1) :
    exec (.wrctrl c) s = .next (State.after { s with ctrl := ⟨c.getLsbD 0⟩ } .ok .none) := by
  rw [exec_served hf, opEndOf, opWrctrl, if_neg h.not_gt, finish_ok]

/-- Settles O26: 0 and 1 have no reserved bit, a value above 1 has one (R16). -/
theorem wrctrlWritesStrict : Obligations.WrctrlWritesStrict := fun _ hf =>
  ⟨exec_wrctrl hf (by decide), exec_wrctrl hf (by decide),
    fun _ h => exec_fatal hf (by rw [opEndOf, opWrctrl, if_pos h])⟩

end Sys2Proof.Machine
end

section
/-!
PROOF. The envelope of R155 over all commands: what the fault state turns away (R156, R203), and the one answer that
every command gets (R158, R190).
-/
namespace Sys2Proof.Machine

/-- Four commands are served while `FAULT = 1` (R156). -/
theorem servedInFault_eq_false {op : Op} (h : op ≠ .init ∧ op ≠ .load ∧ op ≠ .dump ∧ op ≠ .rdreg) :
    servedInFault op = false := by
  obtain ⟨hinit, hload, hdump, hrdreg⟩ := h
  cases op
  case init => exact absurd rfl hinit
  case load => exact absurd rfl hload
  case dump => exact absurd rfl hdump
  case rdreg => exact absurd rfl hrdreg
  all_goals rfl

/-- Settles O15: a work command is turned away before its operation runs; LOAD, DUMP and RDREG run, and a fatal fault
they raise is reported as `Faulted`. -/
theorem faultStateRefusesWork : Obligations.FaultStateRefusesWork := by
  intro i s hf h
  have hfatal {f : FatalFault} (he : exec i s = .next (s.afterFatal f)) :
      exec i s = .next (s.after .faulted .none) := by
    rw [he, afterFatal_of_fault f hf]
  rcases h with hop | ⟨bytes, cap, rfl, hcap, hlt⟩ | ⟨rfl, hlong⟩ | ⟨r, rfl, hr⟩
  · exact exec_faulted hf (servedInFault_eq_false hop)
  · exact hfatal (exec_load_overCap hcap hlt)
  · exact hfatal (exec_dump_tooLong hlong)
  · exact hfatal (exec_rdreg_unnamed hr)

/-- `t` is `s` after one command whose bytes were taken before: `pc` has advanced, the host's side is kept, and one
response was sent, which `LAST` repeats (R158, R190). -/
structure AnsweredOnce (s t : State) : Prop where
  pc : t.pc = s.pc + 1
  host : t.cfg = s.cfg ∧ t.resetRequest = s.resetRequest ∧ t.input = s.input
  response : ∃ r : Response, t.responses = s.responses ++ [r] ∧ t.status.last = r.status ∧
    (r.result ≠ .none → r.status = .ok ∨ r.status = .overflowWarning)

/-- Fault entry is an answer without a result (R201). -/
theorem afterFatal_answeredOnce (s : State) (f : FatalFault) : AnsweredOnce s (s.afterFatal f) := by
  obtain ⟨hpc, hcfg, hreq, -, -, hin, code, hresp, hlast⟩ := afterFatal_frame s f
  exact ⟨hpc, ⟨hcfg, hreq, hin⟩, ⟨code, .none⟩, hresp, hlast, fun hne => absurd rfl hne⟩

/-- The answer to a command whose operation took effect. -/
theorem effect_answeredOnce {i : Instr} {s u : State} (hu : Effect i s u) {code : StatusCode} {r : Result}
    (hr : r ≠ .none → code = .ok ∨ code = .overflowWarning) : AnsweredOnce s (u.after code r) := by
  obtain ⟨hcfg, hin, hreq, hresp, hpc⟩ := hu.host
  exact ⟨by rw [after_pc, hpc], ⟨hcfg, hreq, hin⟩, ⟨code, r⟩, by rw [after_responses, hresp], rfl, hr⟩

/-- Every command that has a next state is answered once, whatever its status. -/
theorem exec_answeredOnce {i : Instr} {s t : State} (h : exec i s = .next t) : AnsweredOnce s t := by
  obtain ⟨-, -, rfl⟩ | ⟨-, ⟨u, code, r, hu, hr, rfl⟩ | ⟨f, rfl⟩⟩ := exec_cases h
  · exact effect_answeredOnce (effect_refl i s) fun hne => absurd rfl hne
  · exact effect_answeredOnce hu hr
  · exact afterFatal_answeredOnce s f

/-- Without a reset request a step takes what the decoder reads from the front of the input and answers it once, legal
or not (R84, R158). -/
theorem step_answeredOnce {s t : State} (hreq : s.resetRequest = false) (h : step s = .next t) :
    ∃ rest, (decode s.cfg s.input).rest? = some rest ∧ AnsweredOnce { s with input := rest } t := by
  obtain ⟨hreset, -⟩ | ⟨-, i, rest, hd, he⟩ | ⟨-, why, rest, hd, rfl⟩ := step_cases h
  · simp [hreq] at hreset
  · exact ⟨rest, by rw [hd, Decoded.rest?], exec_answeredOnce he⟩
  · exact ⟨rest, by rw [hd, Decoded.rest?], afterFatal_answeredOnce _ _⟩

/-- Settles O13: the bytes left behind are those the decoder left, and it takes one command from the front without
looking further. -/
theorem commandAdvancesPcAndAnswersOnce : Obligations.CommandAdvancesPcAndAnswersOnce := by
  intro s t hreq h
  obtain ⟨rest, hd, hpc, ⟨hcfg, hkept, rfl⟩, hresp⟩ := step_answeredOnce hreq h
  obtain ⟨taken, hlen, happ, hfront⟩ := decode_takes_front hd
  have halone : (decode s.cfg taken).rest? = some [] := by simpa using hfront []
  exact ⟨hpc, hcfg, hkept, hd, ⟨taken, hlen, happ, halone⟩, hresp⟩

end Sys2Proof.Machine
end

section
/-!
PROOF. The exceptions (60_exceptions.md): every command is answered but the undefined read of R24, and the fault state
is entered precisely (R201) and left by a new session only (R198, R202).
-/
namespace Sys2Proof.Machine

/-! ### Every command is answered -/

/-- The pseudocode of every operation but RDREG's ends in a response or a raise (R155 step 3, R190). -/
theorem opEndOf_ne_unclaimed {i : Instr} (hi : i.op ≠ .rdreg) (s : State) (ρ : Refusal) :
    opEndOf i s ≠ .unclaimed ρ := by
  cases i with
  | rdreg r => exact absurd rfl hi
  | init | encue value | encse value | widthu hi | pack bits => nofun
  | load bytes => simp only [opEndOf, opLoad]; split <;> nofun
  | dump => simp only [opEndOf, opDump]; split <;> nofun
  | wrctrl c => simp only [opEndOf, opWrctrl]; split <;> nofun
  | appbytes bytes => simp only [opEndOf, opAppbytes]; split <;> nofun
  | appbits bits => simp only [opEndOf, opAppbits]; split <;> nofun
  | epins bytes => simp only [opEndOf, opEpins]; split <;> nofun
  | rdbytes n => simp only [opEndOf, opRdbytes]; split_ifs <;> nofun
  | encf width value => simp only [opEndOf, opEncf]; split_ifs <;> nofun
  | widths lo hi => simp only [opEndOf, opWidths]; split_ifs <;> nofun
  | rdbits n =>
    simp only [opEndOf, opRdbits]
    split
    · nofun
    · split <;> nofun
  | decue =>
    simp only [opEndOf, opDecue]
    split
    · nofun
    · nofun
    · split <;> nofun
  | decse =>
    simp only [opEndOf, opDecse]
    split
    · nofun
    · nofun
    · split <;> nofun

/-- The envelope answers a command whose operation ends in a response or a raise, served or not (R155). -/
theorem execute_answers {e : OpEnd} (he : ∀ ρ, e ≠ .unclaimed ρ) (op : Op) (s : State) :
    ∃ t, execute op s e = .next t := by
  unfold execute
  split
  · exact ⟨_, rfl⟩
  · cases e with
    | unclaimed ρ => exact absurd rfl (he ρ)
    | ok u r | warning u r | signal u g | fatal f => exact ⟨_, rfl⟩

/-- `LEN` and `RBYTE` are the registers without a bound; the others have at most 12 bits (R24). -/
theorem readRegister_bound {s : State} {r v : Nat} (h : readRegister s r = some v) :
    (r = 0 ∧ v = s.cursor.contents.bytes.length) ∨ (r = 1 ∧ v = s.cursor.rbyte) ∨ v < 2 ^ 12 := by
  match r, h with
  | 0, rfl => exact .inl ⟨rfl, rfl⟩
  | 1, rfl => exact .inr (.inl ⟨rfl, rfl⟩)
  | 2, rfl => exact .inr (.inr (s.cursor.rbit.isLt.trans (by decide)))
  | 3, rfl => exact .inr (.inr (s.cursor.wbit.isLt.trans (by decide)))
  | 4, rfl => exact .inr (.inr (s.ctrl.word.isLt.trans (by decide)))
  | 5, rfl => exact .inr (.inr s.status.word.isLt)

/-- Settles O14: RDREG is the one operation with an end the spec makes no claim about, and only a register without a
bound reaches it at a legal `VAL_W`. -/
theorem everyCommandIsAnswered : Obligations.EveryCommandIsAnswered := by
  intro i s
  by_cases hi : i.op = .rdreg
  · obtain ⟨r, rfl⟩ : ∃ r, i = .rdreg r := by
      cases i with
      | rdreg r => exact ⟨r, rfl⟩
      | _ => cases hi
    cases hr : readRegister s r.toNat with
    | none => exact .inl ⟨_, exec_of_fatal (by rw [opEndOf, opRdreg, hr])⟩
    | some v =>
      rcases lt_or_ge v (2 ^ s.cfg.valW) with hv | hv
      · exact .inl ⟨_, exec_rdreg hr hv⟩
      · refine .inr ⟨exec_rdreg_tooWide hr hv, ?_⟩
        obtain ⟨h0, rfl⟩ | ⟨h1, rfl⟩ | hlt := readRegister_bound hr
        · exact .inl ⟨congrArg Instr.rdreg (BitVec.eq_of_toNat_eq h0), hv⟩
        · exact .inr (.inl ⟨congrArg Instr.rdreg (BitVec.eq_of_toNat_eq h1), hv⟩)
        · exact .inr (.inr ⟨r, rfl, (Nat.pow_lt_pow_iff_right (by decide)).mp (hv.trans_lt hlt)⟩)
  · rw [exec_eq]
    exact .inl (execute_answers (opEndOf_ne_unclaimed hi s) _ s)

/-! ### Fault entry -/

/-- An operation that takes effect keeps `FAULT`, or clears it by a new session (R150, R151). -/
theorem effect_fault {i : Instr} {s u : State} (hu : Effect i s u) :
    u.status.fault = s.status.fault ∨ ((i.op = .init ∨ i.op = .load) ∧ u.status.fault = false) := by
  obtain h | h | ⟨hop, h⟩ := hu.status
  · exact .inl (by rw [h])
  · exact .inl (by rw [h, Status_withOverflow_fault])
  · exact .inr ⟨hop, by rw [h, Status_newSession_fault]⟩

/-- A command that takes the block into the fault state has done nothing but fault entry (R201). -/
theorem exec_entersFault {i : Instr} {s t : State} (hf : s.status.fault = false) (h : exec i s = .next t)
    (ht : t.status.fault = true) : ∃ f : FatalFault, t = s.afterFault f := by
  obtain ⟨hf', -⟩ | ⟨-, ⟨u, code, r, hu, -, rfl⟩ | ⟨f, rfl⟩⟩ := exec_cases h
  · simp [hf] at hf'
  · have hkept : u.status.fault = false := by
      obtain hu | ⟨-, hu⟩ := effect_fault hu
      · rw [hu, hf]
      · exact hu
    simp [hkept] at ht
  · exact ⟨f, afterFatal_of_no_fault f hf⟩

/-- Settles O16: for a command it is `exec_entersFault`; an illegal command is fault entry itself, and the reset leaves
`FAULT = 0`. -/
theorem fatalFaultEntryIsPrecise : Obligations.FatalFaultEntryIsPrecise := by
  refine ⟨fun _ _ _ => exec_entersFault, fun s t hf h ht => ?_⟩
  obtain ⟨-, rfl⟩ | ⟨-, i, rest, -, he⟩ | ⟨-, -, rest, -, rfl⟩ := step_cases h
  · simp at ht
  · obtain ⟨f, hfault⟩ := exec_entersFault (s := { s with input := rest }) hf he ht
    exact ⟨f, rest, hfault⟩
  · exact ⟨.illegalCommand, rest, afterFatal_of_no_fault (s := { s with input := rest }) _ hf⟩

/-! ### The end of the fault state -/

/-- Without INIT and LOAD the fault state stays, whatever the answer (R198). -/
theorem exec_keepsFault {i : Instr} {s t : State} (hf : s.status.fault = true) (hop : ¬(i.op = .init ∨ i.op = .load))
    (h : exec i s = .next t) : t.status.fault = true := by
  obtain ⟨-, -, rfl⟩ | ⟨-, ⟨u, code, r, hu, -, rfl⟩ | ⟨f, rfl⟩⟩ := exec_cases h
  · exact hf
  · obtain hu | ⟨hnew, -⟩ := effect_fault hu
    · exact hu.trans hf
    · exact absurd hnew hop
  · exact afterFatal_fault s f

/-- A command that ends the fault state is INIT or a LOAD within `CAP`, and leaves a new session (R202). -/
theorem exec_endsFault {i : Instr} {s t : State} (hf : s.status.fault = true) (h : exec i s = .next t)
    (ht : t.status.fault = false) :
    (i = .init ∧ t = (clearHidden (newSession s [])).after .ok .none) ∨
    ∃ bytes, i = .load bytes ∧ t = (newSession s bytes).after .ok .none := by
  by_cases hop : i.op = .init ∨ i.op = .load
  · cases i with
    | init =>
      rw [exec_init, Host.Outcome.next.injEq] at h
      exact .inl ⟨rfl, h.symm⟩
    | load bytes =>
      cases hcap : Config.exceedsCap s.cfg bytes.length with
      | false =>
        rw [exec_load hcap, Host.Outcome.next.injEq] at h
        exact .inr ⟨bytes, rfl, h.symm⟩
      | true =>
        obtain ⟨cap, hc, hlt⟩ := (exceedsCap_eq_true_iff _ _).mp hcap
        rw [exec_load_overCap hc hlt, Host.Outcome.next.injEq] at h
        simp [← h, afterFatal_fault] at ht
    | _ => simp [Instr.op] at hop
  · simp [exec_keepsFault hf hop h] at ht

/-- Settles O17: the reset or one of the two commands of `exec_endsFault`, each with the cursor and `STATUS` it leaves;
an illegal command is answered `Faulted` and keeps the fault state. -/
theorem faultEndsOnlyByNewSession : Obligations.FaultEndsOnlyByNewSession := by
  intro s t hf h ht
  obtain ⟨hreq, rfl⟩ | ⟨-, i, rest, hd, he⟩ | ⟨-, -, rest, -, rfl⟩ := step_cases h
  · exact ⟨rfl, rfl, .inl hreq⟩
  · obtain ⟨rfl, rfl⟩ | ⟨bytes, rfl, rfl⟩ := exec_endsFault (s := { s with input := rest }) hf he ht
    · exact ⟨rfl, rfl, .inr ⟨rest, .inl ⟨hd, rfl⟩⟩⟩
    · exact ⟨rfl, rfl, .inr ⟨rest, .inr ⟨bytes, hd, rfl⟩⟩⟩
  · simp [afterFatal_fault] at ht

end Sys2Proof.Machine
end

section
/-!
PROOF. Who writes CTRL (R220, R10), and the round trip of a cursor through DUMP and LOAD (R230, R55).
-/
namespace Sys2Proof.Machine

/-! ### CTRL -/

/-- A fatal fault keeps CTRL (R201). -/
@[simp] theorem afterFatal_ctrl (s : State) (f : FatalFault) : (s.afterFatal f).ctrl = s.ctrl := by
  obtain ⟨-, -, -, -, hctrl, -⟩ := afterFatal_frame s f
  exact hctrl

/-- Only WRCTRL can write CTRL: being turned away, the answer and fault entry do not touch it (R220). -/
theorem exec_ctrl {i : Instr} {s t : State} (h : exec i s = .next t) : t.ctrl = s.ctrl ∨ ∃ w, i = .wrctrl w := by
  obtain ⟨-, -, rfl⟩ | ⟨-, ⟨u, code, r, hu, -, rfl⟩ | ⟨f, rfl⟩⟩ := exec_cases h
  · exact .inl (after_ctrl ..)
  · exact hu.ctrl
  · exact .inl (afterFatal_ctrl ..)

/-- Settles O18: a step is a reset, a command, which by `exec_ctrl` must be WRCTRL, or an illegal command, which keeps
CTRL. -/
theorem ctrlWrittenOnlyByWrctrlOrReset : Obligations.CtrlWrittenOnlyByWrctrlOrReset := by
  intro s t h hne
  obtain ⟨hreq, -⟩ | ⟨-, i, rest, hd, he⟩ | ⟨-, -, rest, -, rfl⟩ := step_cases h
  · exact .inl hreq
  · obtain hkept | ⟨w, rfl⟩ := exec_ctrl he
    · exact absurd hkept hne
    · exact .inr ⟨w, rest, hd⟩
  · exact absurd (afterFatal_ctrl ..) hne

/-! ### DUMP then LOAD -/

/-- LOAD of the bytes of the latest response, within `CAP`, starts a new session over them. -/
theorem exec_load_lastResult {s : State} {bytes : Bytes} (hr : s.lastResult = .bytes bytes)
    (h : ∀ cap, s.cfg.cap = some cap → bytes.length ≤ cap) :
    exec (.load s.lastResult.asBytes) s = .next ((newSession s bytes).after .ok .none) := by
  rw [hr, Result.asBytes, exec_load ((exceedsCap_eq_false_iff _ _).mpr h)]

/-- Settles O27: `exec_dump` answers with the bytes of `contents` and keeps the parameters, so those bytes are within
`CAP` for the LOAD, whose new session has both offsets and `WBIT` at 0. -/
theorem dumpThenLoadRestoresContents : Obligations.DumpThenLoadRestoresContents := fun _ hlen hcap =>
  ⟨_, _, exec_dump hlen, exec_load_lastResult (after_lastResult ..) hcap, rfl, rfl⟩

end Sys2Proof.Machine
end
